-- ==== Sys2Proof/Word.lean ====
section
/-! DEFINITION. The fixed-width words of the command port, the action code and the status code.

The registers A, Q and M have a width chosen at run time, so they are natural numbers below `2^n`, as 10_state.md R27
and 00_scope.md R12 allow; only the buses whose width is one number are bit vectors. -/

namespace Sys2Proof

/-- A command word: 8 bits (30_encoding.md R68). -/
abbrev CmdWord := BitVec 8

/-- The `cmd_bits` operand: BW = 16 bits, unsigned (00_scope.md R9, 30_encoding.md R74). -/
abbrev BitsBus := BitVec 16

/-- An action code: 2 bits (30_encoding.md R80). -/
abbrev ActionCode := BitVec 2

/-- A status code: 3 bits (30_encoding.md R78). -/
abbrev StatusCode := BitVec 3

end Sys2Proof
end

