-- ==== Sys2Proof/Config.lean ====
section
/-! DEFINITION. What an implementation fixes, and the free values.

The synthesis parameter NMAX is a field of `State` (so that every statement holds for every NMAX); this file holds its
legal range. The free values are constants without a body: nothing can be proved of what they are. -/

namespace Sys2Proof.Config

/-- The least width the engine accepts (00_scope.md R7: "≥ 4"). -/
def minWidth : Nat := 4

/-- The greatest NMAX (00_scope.md R8, 92_eei_decisions.md D2: `4 <= NMAX <= 65535`). -/
def nmaxGreatest : Nat := 65535

/-- The registers whose value the hardware reset leaves unspecified (70_reset_and_hazards.md R161). -/
inductive FreeReg where
  | A | Q | M | q1 | n | src_x | src_y | rsp_status
deriving DecidableEq, Repr

/-- The value a register holds after the `k`-th hardware reset, before it is cut to the register's width
(70_reset_and_hazards.md R161 "unspecified"; log entry 3). Free: nothing constrains it. -/
opaque freeRegister : Nat → FreeReg → Nat

/-- What the `k`-th look at `rsp_status` shows while `rsp_valid = 0` (93_implementation_defined.md U5 "any value";
log entry 11). Free: nothing constrains it. -/
opaque freeRspStatus : Nat → StatusCode

/-- How many whole steps the `k`-th read during a RUN falls after, before it is cut to the steps that RUN executes
(70_reset_and_hazards.md R169, 93_implementation_defined.md U6; log entry 12). Free: nothing constrains it. -/
opaque freeSteps : Nat → Nat

end Sys2Proof.Config
end

