-- ==== Sys2Proof/Machine/Params.lean ====
section
/-! DEFINITION. The synthesis parameter's value in `State.reset`, and the sizes derived from NMAX (00_scope.md R9). -/

namespace Sys2Proof.Machine

/-- NMAX of the machine that `State.reset` is: 8, the value the spec's test vectors assume (95_test_vectors.md,
92_eei_decisions.md D2 `OPEN`). DESIGN CHOICE, log entry 1. No step changes the field, and every statement holds for
every NMAX. -/
def nmaxBuilt : Nat := 8

/-- NMAX is one the spec allows (00_scope.md R8). -/
def nmaxLegal (nmax : Nat) : Bool := Config.minWidth ≤ nmax && nmax ≤ Config.nmaxGreatest

/-- DW, the width of every observation data port (00_scope.md R9). -/
def dw (nmax : Nat) : Nat := 2 * nmax

/-- CW = bitlength(NMAX), the least w with `NMAX < 2^w` (00_scope.md R9). -/
def cw (nmax : Nat) : Nat := Nat.log2 nmax + 1

/-- BW, the width of `cmd_bits` and of `n` (00_scope.md R9). -/
def bw : Nat := 16

end Sys2Proof.Machine
end

