-- ==== Sys2Proof/Syntax.lean ====
section
/-! DEFINITION. The instructions, one constructor per row of spec/opcode_table.json, and the command as the host
presents it on the command port. -/

namespace Sys2Proof

/-- The function of the adder/subtractor in one step (30_encoding.md R80, 41_engine.md R119). -/
inductive Action where
  | none
  | add
  | subtract
deriving DecidableEq, Repr

/-- One instruction. The first three are the host's commands (30_encoding.md R69); the last three are the action codes,
which only the Booth decision inside a step selects (41_engine.md R119) and which no command word encodes
(log entry 7). -/
inductive Instr where
  /-- RESET. An operand is `some` exactly when its `sel` bit is 1 (30_encoding.md R70): the multiplicand and the
  multiplier as NMAX-bit patterns (R72, R73) and the width as the 16-bit `cmd_bits` (R74). -/
  | reset (x : Option Nat) (y : Option Nat) (bits : Option BitsBus)
  /-- STEP: one Booth iteration (41_engine.md R118, R120). -/
  | step
  /-- RUN: the remaining iterations (41_engine.md R125). -/
  | run
  /-- ACT_NONE, action code 00: A keeps its value. -/
  | actNone
  /-- ACT_ADD, action code 01: A receives `maskedAdd(A, M, n)`. -/
  | actAdd
  /-- ACT_SUBTRACT, action code 10: A receives `maskedSub(A, M, n)`. -/
  | actSubtract
deriving DecidableEq, Repr

/-- What the host drives on the command port with `cmd_valid = 1` (30_encoding.md R67). The field names are the
port's signal names. -/
structure Command where
  cmd_word : CmdWord
  cmd_x    : Nat
  cmd_y    : Nat
  cmd_bits : BitsBus
deriving DecidableEq, Repr

/-- An instruction as bits: on the command port, or as a code on the adder/subtractor's 2-bit action wires. The two are
different wires, and the same number means different things on them (30_encoding.md R68, R80). -/
inductive Encoded where
  | command (c : Command)
  | action (code : ActionCode)
deriving DecidableEq, Repr

end Sys2Proof
end

