-- ==== Sys2Proof/Machine/State.lean ====
section
/-! DEFINITION. The state of the engine as plain data, the reasons a read can stop, and the state after the hardware
reset. 10_state.md R20 gives the complete tuple of the spec's state; three further fields are the model's own and say
so. The spec's names are kept. -/

namespace Sys2Proof.Machine

/-- The control state machine's busy state (10_state.md R33). -/
inductive Phase where
  | IDLE
  | RUN_LOOP
deriving DecidableEq, Repr

/-- The status a command ends with (30_encoding.md R78). -/
inductive Status where
  | OK
  | DONE
  | INVALID_CONFIGURATION
  | NOT_CONFIGURED
  | ILLEGAL_COMMAND
deriving DecidableEq, Repr

/-- One step snapshot (20_memory.md R51). -/
structure LogEntry where
  idx : Nat
  act : Action
  a   : Nat
  q   : Nat
  q1  : Bool
  m   : Nat
deriving DecidableEq, Repr

/-- The step-log memory: the entries written since the hardware reset, by index, indices strictly rising (log entry 9).
An index that is not listed has no value. -/
abbrev Memory := List (Nat × LogEntry)

/-- What the host does at one point in time: it presents a command and holds it until it is accepted
(70_reset_and_hazards.md R166, R167), lets a clock edge pass with `cmd_valid = 0`, or asserts `rst_n = 0` (R160). -/
inductive HostInput where
  | command (c : Command)
  | idle
  | hardwareReset
deriving DecidableEq, Repr

/-- The machine. Registers whose width depends on NMAX or n are natural numbers (00_scope.md R12, 10_state.md R27,
log entry 10); `StateInv` in Safety.lean says that each fits its width. -/
structure State where
  /-- NMAX, the synthesis parameter (00_scope.md R8); no step changes it. The model's own field. -/
  nmax       : Nat
  /-- The accumulator (10_state.md R22). -/
  A          : Nat
  /-- The multiplier, then the low half of the product (10_state.md R23). -/
  Q          : Nat
  /-- The multiplicand's encoding (10_state.md R24). -/
  M          : Nat
  /-- The Q-1 latch (10_state.md R25). -/
  q1         : Bool
  /-- The step counter (10_state.md R26). -/
  count      : Nat
  /-- The configured width (10_state.md R29). -/
  n          : Nat
  /-- The multiplicand as supplied, mod 2^NMAX (10_state.md R30). -/
  src_x      : Nat
  /-- The multiplier as supplied, mod 2^NMAX (10_state.md R30). -/
  src_y      : Nat
  /-- A configuration has been loaded (10_state.md R31). -/
  cfg_valid  : Bool
  /-- The number of valid log entries (10_state.md R32). -/
  log_len    : Nat
  /-- The step-log memory (20_memory.md R50). -/
  Log        : Memory
  /-- IDLE or RUN_LOOP (10_state.md R33). -/
  phase      : Phase
  /-- The response register: a status is being returned (10_state.md R34). -/
  rsp_valid  : Bool
  /-- The response register: the status (10_state.md R34, 30_encoding.md R78). -/
  rsp_status : StatusCode
  /-- The host's pending inputs, oldest first. The model's own field (log entry 5). -/
  host       : List HostInput
  /-- How many times the hardware reset has drawn free values. The model's own field (log entry 3). -/
  draws      : Nat
deriving DecidableEq, Repr

/-- Why a read of a port gives no value. No command ends in a fault (60_exceptions.md R145, R148). Every fault is safe:
the spec gives the read no value and a model none either. -/
inductive Fault where
  /-- Raised by `readObs`: an observation port other than `obs_status` and `obs_log_len` read while `cfg_valid = 0`
  (10_state.md R38, 93_implementation_defined.md U2). Safe. -/
  | observationUnconfigured
  /-- Raised by `readLog`: a `log_*` output used while `log_rvalid = 0` (20_memory.md R55,
  93_implementation_defined.md U3, U4). Safe. -/
  | logReadInvalid
  /-- Raised by `readLog`: `log_rvalid = 1` and no entry was ever written at the index. No state that satisfies `StateInv`
  raises it. Safe (log entry 9). -/
  | logEntryAbsent
deriving DecidableEq, Repr

/-- What the model gives no meaning. No command ends in a refusal. -/
inductive Refusal where
  /-- An instruction whose meaning is not written yet; raised by a refused arm of `exec` only. No arm is refused. -/
  | notModelled (mnemonic : String)
  /-- Raised by `LogEntry.unpack`: action code 11 in a packed log entry (93_implementation_defined.md U9 "should
  `refuse` it"). Safe. -/
  | actionCodeNeverProduced
  /-- Raised by `Status.ofCode`: status code 5 to 7 (93_implementation_defined.md U9). Safe. -/
  | statusCodeNeverProduced
deriving DecidableEq, Repr

/-- The state after the hardware reset, for a machine built with the given NMAX: 70_reset_and_hazards.md R161. The
registers that R161 leaves unspecified hold 0 (DESIGN CHOICE, log entry 2); the log lists nothing. -/
def State.resetFor (nmax : Nat) : State :=
  { nmax := nmax
    A := 0, Q := 0, M := 0, q1 := false
    count := 0
    n := 0
    src_x := 0, src_y := 0
    cfg_valid := false
    log_len := 0
    Log := []
    phase := .IDLE
    rsp_valid := false
    rsp_status := 0#3
    host := []
    draws := 0 }

/-- The machine right after the hardware reset, built with NMAX = `nmaxBuilt` (log entry 1). -/
def State.reset : State := State.resetFor nmaxBuilt

end Sys2Proof.Machine
end

