-- ==== Sys2Proof/Machine/Flags.lean ====
section
/-! DEFINITION. The status bits and the status codes. The block has no arithmetic flags (10_state.md R35); its only
status bits are `done`, `cfg_valid` and `busy`. -/

namespace Sys2Proof.Machine

/-- RUNNING: configured with `count < n` (41_engine.md R110). -/
def State.running (s : State) : Bool := s.cfg_valid && decide (s.count < s.n)

/-- DONE: configured with `count = n` (41_engine.md R110, 10_state.md R39). -/
def State.done (s : State) : Bool := s.cfg_valid && decide (s.count = s.n)

/-- BUSY: a RUN is executing steps (10_state.md R35, R39). -/
def State.busy (s : State) : Bool := decide (s.phase = .RUN_LOOP)

/-- The 8-bit status word: bit 0 CFG_VALID, bit 1 DONE, bit 2 BUSY, bits 7:3 read as 0 (10_state.md R39). -/
def State.obs_status (s : State) : BitVec 8 :=
  (0#5 ++ BitVec.ofBool s.busy) ++ (BitVec.ofBool s.done ++ BitVec.ofBool s.cfg_valid)

/-- The 3-bit code of a status (30_encoding.md R78). -/
def Status.code : Status → StatusCode
  | .OK => 0#3
  | .DONE => 1#3
  | .INVALID_CONFIGURATION => 2#3
  | .NOT_CONFIGURED => 3#3
  | .ILLEGAL_COMMAND => 4#3

/-- The status of a code; 5 to 7 are never produced and refused (93_implementation_defined.md U9). -/
def Status.ofCode (c : StatusCode) : Host.Outcome Status Fault Refusal :=
  if c = 0#3 then .next .OK
  else if c = 1#3 then .next .DONE
  else if c = 2#3 then .next .INVALID_CONFIGURATION
  else if c = 3#3 then .next .NOT_CONFIGURED
  else if c = 4#3 then .next .ILLEGAL_COMMAND
  else .refused .statusCodeNeverProduced

/-- The error statuses: those of 60_exceptions.md R140 that are not normal outcomes. -/
def Status.isError : Status → Bool
  | .OK => false
  | .DONE => false
  | .INVALID_CONFIGURATION => true
  | .NOT_CONFIGURED => true
  | .ILLEGAL_COMMAND => true

end Sys2Proof.Machine
end

