-- ==== Sys2Proof/WellFormed.lean ====
section
/-! DEFINITION. Which instructions can stand on the wires at all: the operands of RESET fit the NMAX-bit buses. -/

namespace Sys2Proof

/-- `v` fits an NMAX-bit operand bus (30_encoding.md R67). -/
def fitsBus (nmax : Nat) (v : Nat) : Bool := v < 2 ^ nmax

/-- A supplied operand fits its bus; an omitted one has nothing to fit. -/
def operandFits (nmax : Nat) : Option Nat → Bool
  | some v => fitsBus nmax v
  | none => true

/-- The instruction is one the wires can carry (30_encoding.md R72, R73). `cmd_bits` is 16 bits by its type (R74), and
no other instruction has an operand. -/
def Instr.wellFormed (nmax : Nat) : Instr → Bool
  | .reset x y _ => operandFits nmax x && operandFits nmax y
  | .step => true
  | .run => true
  | .actNone => true
  | .actAdd => true
  | .actSubtract => true

/-- The presented operands fit their buses. -/
def Command.wellFormed (nmax : Nat) (c : Command) : Bool := fitsBus nmax c.cmd_x && fitsBus nmax c.cmd_y

end Sys2Proof
end

