-- ==== Sys2Proof/Decode.lean ====
section
/-! DEFINITION. The decoder, total on every command word and every action code, rejecting by name; the opcode table as
rows of match and mask; and the encoder. 30_encoding.md R68 to R80. -/

namespace Sys2Proof

/-- Why a word or code is no instruction. For a command word the engine answers ILLEGAL_COMMAND whatever the reason
(30_encoding.md R77). Where several reasons apply the first in this order is given (log entry 16). -/
inductive Reject where
  /-- Bit 7, `rsv`, is 1 (30_encoding.md R71). -/
  | reservedBitSet
  /-- `op` is 0x0 or 0x4 to 0xF (30_encoding.md R69). -/
  | reservedOp
  /-- STEP or RUN with `sel` other than 000 (30_encoding.md R68). -/
  | selNotZero
  /-- Action code 11, never produced (30_encoding.md R80, 93_implementation_defined.md U9). -/
  | reservedAction
deriving DecidableEq, Repr

/-! ## Fields of the command word (30_encoding.md R68) -/

/-- Bit 7, reserved. -/
def CmdWord.rsv (w : CmdWord) : Bool := w.getLsbD 7

/-- Bits 6:4, the supplied-parameter mask. -/
def CmdWord.sel (w : CmdWord) : BitVec 3 := w.extractLsb' 4 3

/-- Bits 3:0, the operation. -/
def CmdWord.op (w : CmdWord) : BitVec 4 := w.extractLsb' 0 4

/-- `{rsv = 0, sel, op}` as one word. -/
def CmdWord.pack (sel : BitVec 3) (op : BitVec 4) : CmdWord := (0#1 ++ sel) ++ op

/-- The `op` values (30_encoding.md R69, 92_eei_decisions.md D6). -/
def opReset : BitVec 4 := 0x1#4
def opStep : BitVec 4 := 0x2#4
def opRun : BitVec 4 := 0x3#4

/-- What an NMAX-bit operand bus carries of `v`: only NMAX wires exist (30_encoding.md R67, R72; log entry 8). -/
def busValue (nmax : Nat) (v : Nat) : Nat := v % 2 ^ nmax

/-- An operand is there exactly when its `sel` bit is 1; a bus that is not selected is ignored
(30_encoding.md R70, R75). -/
def selected {α : Type} (supplied : Bool) (v : α) : Option α := if supplied then some v else none

/-- The decoder of the command port: 30_encoding.md R76. -/
def decodeCommand (nmax : Nat) (c : Command) : Except Reject Instr :=
  let w := c.cmd_word
  if w.rsv then .error .reservedBitSet
  else if w.op = opReset then
    .ok (.reset (selected (w.sel.getLsbD 0) (busValue nmax c.cmd_x))
      (selected (w.sel.getLsbD 1) (busValue nmax c.cmd_y))
      (selected (w.sel.getLsbD 2) c.cmd_bits))
  else if w.op = opStep then (if w.sel = 0#3 then .ok .step else .error .selNotZero)
  else if w.op = opRun then (if w.sel = 0#3 then .ok .run else .error .selNotZero)
  else .error .reservedOp

/-- The action codes: 30_encoding.md R80, 92_eei_decisions.md D10. -/
def decodeActionCode (code : ActionCode) : Except Reject Action :=
  if code = 0b00#2 then .ok .none
  else if code = 0b01#2 then .ok .add
  else if code = 0b10#2 then .ok .subtract
  else .error .reservedAction

/-- The instruction an action stands for. -/
def Action.instr : Action → Instr
  | .none => .actNone
  | .add => .actAdd
  | .subtract => .actSubtract

/-- The decoder, on either kind of wires. -/
def decode (nmax : Nat) : Encoded → Except Reject Instr
  | .command c => decodeCommand nmax c
  | .action code =>
    match decodeActionCode code with
    | .ok a => .ok a.instr
    | .error e => .error e

/-! ## The opcode table (spec/opcode_table.json) -/

/-- One row: the mnemonic, the width in bits of its word, and the word's fixed bits as match and mask. -/
structure OpcodeRow where
  mnemonic : String
  width    : Nat
  fixed    : Nat
  mask     : Nat
deriving DecidableEq, Repr

/-- The rows of the command port (30_encoding.md R76 "As match and mask"). -/
def commandRows : List OpcodeRow :=
  [⟨"RESET", 8, 0x01, 0x8F⟩, ⟨"STEP", 8, 0x02, 0xFF⟩, ⟨"RUN", 8, 0x03, 0xFF⟩]

/-- The rows of the action wires (30_encoding.md R80). -/
def actionRows : List OpcodeRow :=
  [⟨"ACT_NONE", 2, 0x0, 0x3⟩, ⟨"ACT_ADD", 2, 0x1, 0x3⟩, ⟨"ACT_SUBTRACT", 2, 0x2, 0x3⟩]

/-- A word belongs to a row when its masked bits are the row's. -/
def OpcodeRow.matches (r : OpcodeRow) (w : Nat) : Bool := w &&& r.mask == r.fixed

/-- The legal command words: 30_encoding.md R76, bit by bit. -/
def legalWord (w : CmdWord) : Bool := commandRows.any (fun r => r.matches w.toNat)

/-! ## The encoder -/

/-- The 2-bit code of an action (30_encoding.md R80). -/
def Action.code : Action → ActionCode
  | .none => 0b00#2
  | .add => 0b01#2
  | .subtract => 0b10#2

/-- `sel` from the operands supplied: bit 0 the multiplicand, bit 1 the multiplier, bit 2 the width
(30_encoding.md R70). -/
def selOf (x y : Option Nat) (bits : Option BitsBus) : BitVec 3 :=
  (BitVec.ofBool bits.isSome ++ BitVec.ofBool y.isSome) ++ BitVec.ofBool x.isSome

/-- RESET on the command port; a bus that is not selected is driven with 0 (its value is ignored, R75). -/
def encodeReset (x y : Option Nat) (bits : Option BitsBus) : Command :=
  { cmd_word := CmdWord.pack (selOf x y bits) opReset
    cmd_x := x.getD 0, cmd_y := y.getD 0, cmd_bits := bits.getD 0#16 }

/-- A command that reads no bus. -/
def encodeBare (op : BitVec 4) : Command :=
  { cmd_word := CmdWord.pack 0#3 op, cmd_x := 0, cmd_y := 0, cmd_bits := 0#16 }

/-- The bits of an instruction. -/
def encode : Instr → Encoded
  | .reset x y bits => .command (encodeReset x y bits)
  | .step => .command (encodeBare opStep)
  | .run => .command (encodeBare opRun)
  | .actNone => .action (Action.code .none)
  | .actAdd => .action (Action.code .add)
  | .actSubtract => .action (Action.code .subtract)

/-! ## The table's numbering, for the host's probes -/

/-- The instruction's number as a presented command: the word in bits 7:0, every operand bus 0. -/
def commandOfNat (w : Nat) : Command :=
  { cmd_word := BitVec.ofNat 8 w, cmd_x := 0, cmd_y := 0, cmd_bits := 0#16 }

/-- The instruction the decoder reads from the number `w` of an opcode-table row of `nbits` bits. The table has two
kinds of rows on two kinds of wires: a row of 8 bits or more is a command word, a row of fewer is an action code. An
action code asked for in a whole byte is read as the command word with that number (log entry 7). -/
def decodeTableWord (nbits w : Nat) : Option Instr :=
  let bits := w % 2 ^ nbits
  let e := if nbits < 8 then Encoded.action (BitVec.ofNat 2 bits) else Encoded.command (commandOfNat bits)
  match decode 0 e with
  | .ok i => some i
  | .error _ => none

end Sys2Proof
end

