-- ==== Sys2Proof/Machine/Datapath.lean ====
section
/-! DEFINITION. The combinational datapath: 40_datapath.md R90 to R102, each formula as the spec writes it, on natural
numbers and integers (00_scope.md R12), and the Booth decision (41_engine.md R119). The adder's carry-out and signed
overflow have no value anywhere (10_state.md R35, 93_implementation_defined.md U10). -/

namespace Sys2Proof.Machine

/-- `toTwosComplement(v, w) = v mod 2^w` (R90). -/
def toTwosComplement (v : Int) (w : Nat) : Nat := (v % ((2 ^ w : Nat) : Int)).toNat

/-- `fromTwosComplement(p, w)`: the top bit set means `p - 2^w` (R91). -/
def fromTwosComplement (p : Nat) (w : Nat) : Int :=
  if p.testBit (w - 1) then (p : Int) - ((2 ^ w : Nat) : Int) else (p : Int)

/-- `~_w b = (2^w - 1) - b` (00_scope.md R12). -/
def complement (w : Nat) (b : Nat) : Nat := (2 ^ w - 1) - b

/-- `maskedAdd(a, b, n) = (a + b) mod 2^n` (R93). -/
def maskedAdd (a b n : Nat) : Nat := (a + b) % 2 ^ n

/-- `maskedSub(a, b, n)`: add the two's-complement negation of b (R94). -/
def maskedSub (a b n : Nat) : Nat :=
  let neg_b := (complement n b + 1) % 2 ^ n
  (a + neg_b) % 2 ^ n

/-- The one-adder hardware form (R95): `s` inverts M and is the carry into bit 0. -/
def adderHardware (s : Bool) (A M n : Nat) : Nat :=
  let s_n := if s then 2 ^ n - 1 else 0
  (A + (M ^^^ s_n) + s.toNat) % 2 ^ n

/-- The double register {A, Q} with the Q-1 latch, as the shift and the step see it. -/
structure Regs where
  A  : Nat
  Q  : Nat
  q1 : Bool
deriving DecidableEq, Repr

/-- `shiftRightArithmeticAQ(A, Q, Q1, n)` (R96): one position, all outputs from the old inputs; Q1 is not read. -/
def shiftRightArithmeticAQ (r : Regs) (n : Nat) : Regs :=
  { q1 := r.Q.testBit 0
    Q := (r.Q >>> 1) ||| ((r.A.testBit 0).toNat * 2 ^ (n - 1))
    A := (r.A >>> 1) ||| ((r.A.testBit (n - 1)).toNat * 2 ^ (n - 1)) }

/-- `ProductU(A, Q, n) = A * 2^n + Q` (R100). -/
def ProductU (A Q n : Nat) : Nat := A * 2 ^ n + Q

/-- `ProductS(A, Q, n)`: the signed reading of the 2n-bit product (R101). -/
def ProductS (A Q n : Nat) : Int := fromTwosComplement (ProductU A Q n) (2 * n)

/-- `Signed(R, n)` (R102). -/
def Signed (R n : Nat) : Int := fromTwosComplement R n

/-- `sext_w_to_W(p) = fromTwosComplement(p, w) mod 2^W` (00_scope.md R13). -/
def sext (w W : Nat) (p : Nat) : Nat := toTwosComplement (fromTwosComplement p w) W

/-- The Booth decision `Decide(Q[0], q1)` (41_engine.md R119). -/
def boothDecide : Bool → Bool → Action
  | true, false => .subtract
  | false, true => .add
  | false, false => .none
  | true, true => .none

/-- What A receives under an action (30_encoding.md R80, the column "A receives"). -/
def aluResult (act : Action) (A M n : Nat) : Nat :=
  match act with
  | .none => A
  | .add => maskedAdd A M n
  | .subtract => maskedSub A M n

/-- The registers after one Booth iteration: the action chosen from the old Q[0] and q1, then the coupled shift of the
post-arithmetic A with the old Q (41_engine.md R120). -/
def boothStep (n M : Nat) (r : Regs) : Regs :=
  shiftRightArithmeticAQ { r with A := aluResult (boothDecide (r.Q.testBit 0) r.q1) r.A M n } n

/-- The registers after `k` Booth iterations. -/
def boothIter (n M : Nat) : Nat → Regs → Regs
  | 0, r => r
  | k + 1, r => boothStep n M (boothIter n M k r)

end Sys2Proof.Machine
end

