-- ==== Sys2Proof/Machine/Operands.lean ====
section
/-! DEFINITION. Operand assembly and the retained parameters of RESET: 30_encoding.md R72 to R75, 41_engine.md R112 to
R114. -/

namespace Sys2Proof.Machine

/-- What the host drives on `cmd_x` or `cmd_y` for the signed integer it means: `x mod 2^NMAX`
(30_encoding.md R72, R73). -/
def busPattern (nmax : Nat) (v : Int) : Nat := toTwosComplement v nmax

/-- What the host drives on `cmd_bits` for a requested width: the width itself where 16 bits hold it, else 0, a value
below 4 (30_encoding.md R74, 92_eei_decisions.md D31; log entry 15). -/
def bitsPattern (bits : Int) : BitsBus :=
  if 0 ≤ bits ∧ bits ≤ 65535 then BitVec.ofNat 16 bits.toNat else 0#16

/-- A requested width is valid: `4 <= cmd_bits <= NMAX` (30_encoding.md R74, 41_engine.md R114). -/
def bitsValid (nmax : Nat) (bits : BitsBus) : Bool := Config.minWidth ≤ bits.toNat && bits.toNat ≤ nmax

/-- Every supplied width is valid; an omitted width is not checked (41_engine.md R114). -/
def suppliedBitsValid (nmax : Nat) : Option BitsBus → Bool
  | some b => bitsValid nmax b
  | none => true

/-- `sel = 111`: all three parameters are supplied (30_encoding.md R70, 41_engine.md R115). -/
def allSupplied (x y : Option Nat) (bits : Option BitsBus) : Bool := x.isSome && y.isSome && bits.isSome

/-- A source operand: the supplied pattern, held in NMAX bits, or the retained one (41_engine.md R113,
10_state.md R30). -/
def resolveSource (nmax : Nat) (supplied : Option Nat) (retained : Nat) : Nat :=
  match supplied with
  | some v => busValue nmax v
  | none => retained

/-- The width: the supplied one or the retained one (41_engine.md R113). -/
def resolveWidth (supplied : Option BitsBus) (retained : Nat) : Nat :=
  match supplied with
  | some b => b.toNat
  | none => retained

end Sys2Proof.Machine
end

