-- ==== Sys2Proof/Machine/Ops.lean ====
section
/-! DEFINITION. The shared operations: the step-log memory, the response, the body of a step, and the hardware reset.

The block has no trap mechanism (60_exceptions.md R148, R149): an error status is `respond` with nothing else written,
so there is no exception entry and no return from one. -/

namespace Sys2Proof.Machine

/-! ## The step-log memory (20_memory.md R50 to R55) -/

/-- The entry at an index, if one was ever written there. -/
def Memory.read : Memory → Nat → Option LogEntry
  | [], _ => none
  | (j, e) :: rest, i => if j = i then some e else Memory.read rest i

/-- `LogWrite(i, e)` (00_scope.md R14): the entry at `i` becomes `e` and no other entry changes. The indices stay
strictly rising. -/
def Memory.write : Memory → Nat → LogEntry → Memory
  | [], i, e => [(i, e)]
  | (j, d) :: rest, i, e =>
    if i < j then (i, e) :: (j, d) :: rest
    else if i = j then (i, e) :: rest
    else (j, d) :: Memory.write rest i e

/-- Every listed index is above `b`, and the indices rise strictly. -/
def Memory.risesAbove (b : Nat) : Memory → Bool
  | [] => true
  | (j, _) :: rest => decide (b ≤ j) && Memory.risesAbove (j + 1) rest

/-- The canonical form: indices strictly rising. An index that is not listed has no value, so no entry equals what an
unlisted index reads as. -/
def Memory.wf (m : Memory) : Bool := Memory.risesAbove 0 m

/-! ## The response -/

/-- A command ends with a status (00_scope.md R14 `respond`, `raise`; 30_encoding.md R79). This writes the response
register only (log entry 4). -/
def respond (st : Status) (s : State) : State := { s with rsp_valid := true, rsp_status := st.code }

/-- A clock edge at which no command completes: `rsp_valid` falls (70_reset_and_hazards.md R174). -/
def noResponse (s : State) : State := { s with rsp_valid := false }

/-! ## The body of a step -/

/-- The double register as the datapath sees it. -/
def State.regs (s : State) : Regs := { A := s.A, Q := s.Q, q1 := s.q1 }

/-- The action the Booth decision selects in this state (41_engine.md R119). -/
def State.action (s : State) : Action := boothDecide (s.Q.testBit 0) s.q1

/-- The entry the step appends (41_engine.md R120, 20_memory.md R51): `idx` is the new count. -/
def State.snapshot (s : State) : LogEntry :=
  let r := boothStep s.n s.M s.regs
  { idx := s.count + 1, act := s.action, a := r.A, q := r.Q, q1 := r.q1, m := s.M }

/-- The body of STEP from `let act` to `log_len <- log_len + 1` (41_engine.md R120). Every read sees the values before
it, and all writes take effect together (00_scope.md R14). -/
def stepBody (s : State) : State :=
  let r := boothStep s.n s.M s.regs
  { s with
    A := r.A
    Q := r.Q
    q1 := r.q1
    count := s.count + 1
    Log := Memory.write s.Log s.log_len s.snapshot
    log_len := s.log_len + 1 }

/-- `k` step bodies, each reading the state the previous one wrote (41_engine.md R125). -/
def stepBodies : Nat → State → State
  | 0, s => s
  | k + 1, s => stepBodies k (stepBody s)

/-- `while count < n` of RUN: a body raises `count` by 1 and keeps `n`, so the loop runs `n - count` bodies
(41_engine.md R125, 90_conflicts.md C2). -/
def runLoop (s : State) : State := stepBodies (s.n - s.count) s

/-- One clock edge of a RUN (70_reset_and_hazards.md R173, 41_engine.md R130): one step body; the edge whose step makes
`count = n` returns phase to IDLE and completes the command. -/
def runEdge (s : State) : State :=
  let t := stepBody s
  if t.count = t.n then respond .OK { t with phase := .IDLE }
  else noResponse { t with phase := .RUN_LOOP }

/-! ## The hardware reset -/

/-- A free value of the hardware reset, cut to `w` bits (log entry 3). -/
def freeBits (k : Nat) (r : Config.FreeReg) (w : Nat) : Nat := Config.freeRegister k r % 2 ^ w

/-- The hardware reset at an edge with `rst_n = 0` (70_reset_and_hazards.md R160, R161, R165): the control state takes
the values of R161, an executing command is aborted without a response, and every register that R161 leaves unspecified
takes a free value. The log's entries have no value afterwards. -/
def hardwareReset (s : State) : State :=
  { s with
    cfg_valid := false
    phase := .IDLE
    count := 0
    log_len := 0
    rsp_valid := false
    rsp_status := BitVec.ofNat 3 (freeBits s.draws .rsp_status 3)
    A := freeBits s.draws .A s.nmax
    Q := freeBits s.draws .Q s.nmax
    M := freeBits s.draws .M s.nmax
    q1 := (freeBits s.draws .q1 1).testBit 0
    n := freeBits s.draws .n bw
    src_x := freeBits s.draws .src_x s.nmax
    src_y := freeBits s.draws .src_y s.nmax
    Log := []
    draws := s.draws + 1 }

end Sys2Proof.Machine
end

