-- ==== Sys2Proof/Machine/Actions.lean ====
section
/-! DEFINITION. The action codes: what the adder/subtractor does to A in a step before the shift (30_encoding.md R80,
41_engine.md R119, 40_datapath.md R93, R94). The datapath is combinational, so an action has this effect in every state
and ends with no status; only the Booth decision inside `stepBody` selects one (log entry 7). -/

namespace Sys2Proof.Machine

/-- ACT_NONE, code 00: A unchanged. -/
def execActNone (s : State) : Host.Outcome State Fault Refusal := .next { s with A := aluResult .none s.A s.M s.n }

/-- ACT_ADD, code 01: A <- maskedAdd(A, M, n). -/
def execActAdd (s : State) : Host.Outcome State Fault Refusal := .next { s with A := aluResult .add s.A s.M s.n }

/-- ACT_SUBTRACT, code 10: A <- maskedSub(A, M, n). -/
def execActSubtract (s : State) : Host.Outcome State Fault Refusal :=
  .next { s with A := aluResult .subtract s.A s.M s.n }

end Sys2Proof.Machine
end

