-- ==== Sys2Proof/Machine/Commands.lean ====
section
/-! DEFINITION. The host's commands at the transaction level: 41_engine.md R112 to R129. -/

namespace Sys2Proof.Machine

/-- The writes of a RESET that passed its checks (41_engine.md R113). The log's entries are not cleared; they become
unreadable through `log_len <- 0`. -/
def loadConfiguration (x y : Option Nat) (bits : Option BitsBus) (s : State) : State :=
  let n' := resolveWidth bits s.n
  let sx := resolveSource s.nmax x s.src_x
  let sy := resolveSource s.nmax y s.src_y
  { s with
    n := n'
    src_x := sx
    src_y := sy
    M := toTwosComplement (sx : Int) n'
    Q := toTwosComplement (sy : Int) n'
    A := 0
    q1 := false
    count := 0
    log_len := 0
    cfg_valid := true }

/-- RESET (41_engine.md R113 to R115): NOT_CONFIGURED comes before INVALID_CONFIGURATION (60_exceptions.md R147), and
both checks come before every write (60_exceptions.md R146). -/
def execReset (x y : Option Nat) (bits : Option BitsBus) (s : State) : Host.Outcome State Fault Refusal :=
  if s.cfg_valid = false ∧ allSupplied x y bits = false then .next (respond .NOT_CONFIGURED s)
  else if suppliedBitsValid s.nmax bits = false then .next (respond .INVALID_CONFIGURATION s)
  else .next (respond .OK (loadConfiguration x y bits s))

/-- STEP (41_engine.md R120, R121). -/
def execStep (s : State) : Host.Outcome State Fault Refusal :=
  if s.cfg_valid = false then .next (respond .NOT_CONFIGURED s)
  else if s.count = s.n then .next (respond .DONE s)
  else .next (respond .OK (stepBody s))

/-- RUN (41_engine.md R125, R127): one atomic transition at this level. It never answers DONE. -/
def execRun (s : State) : Host.Outcome State Fault Refusal :=
  if s.cfg_valid = false then .next (respond .NOT_CONFIGURED s)
  else .next (respond .OK (runLoop s))

end Sys2Proof.Machine
end

