-- ==== Sys2Proof/Machine/Dispatch.lean ====
section
/-! DEFINITION. One arm per instruction. -/

namespace Sys2Proof.Machine

def exec (i : Instr) (s : State) : Host.Outcome State Fault Refusal :=
  match i with
  -- the host's commands (41_engine.md)
  | .reset x y bits => Sys2Proof.Machine.execReset x y bits s
  | .step => Sys2Proof.Machine.execStep s
  | .run => Sys2Proof.Machine.execRun s
  -- the action codes (30_encoding.md R80)
  | .actNone => Sys2Proof.Machine.execActNone s
  | .actAdd => Sys2Proof.Machine.execActAdd s
  | .actSubtract => Sys2Proof.Machine.execActSubtract s

end Sys2Proof.Machine
end

