-- ==== Sys2Proof/Machine/Fetch.lean ====
section
/-! DEFINITION. Accepting the host's inputs: which input the next transition takes, how a presented command word is
decoded and executed, and how the host's probes place one (41_engine.md R111, 70_reset_and_hazards.md R166). -/

namespace Sys2Proof.Machine

/-- `Execute(word, cmd_x, cmd_y, cmd_bits)` (41_engine.md R111): an illegal word ends with ILLEGAL_COMMAND and writes
nothing (60_exceptions.md R143); a legal one is executed. -/
def acceptCommand (c : Command) (s : State) : Host.Outcome State Fault Refusal :=
  match decodeCommand s.nmax c with
  | .ok i => exec i s
  | .error _ => .next (respond .ILLEGAL_COMMAND s)

/-- One input of the host in phase IDLE. -/
def inputIdle (x : HostInput) (s : State) : Host.Outcome State Fault Refusal :=
  match x with
  | .command c => acceptCommand c s
  | .idle => .next (noResponse s)
  | .hardwareReset => .next (hardwareReset s)

/-- The next transition in phase IDLE: the oldest input is taken; with none, a clock edge passes. -/
def stepIdle (s : State) : Host.Outcome State Fault Refusal :=
  match s.host with
  | [] => .next (noResponse s)
  | x :: rest => inputIdle x { s with host := rest }

/-- The next transition in phase RUN_LOOP (41_engine.md R130, state L): a hardware reset aborts the RUN; otherwise one
step body. No command is accepted: a presented one waits (70_reset_and_hazards.md R166). -/
def stepRunLoop (s : State) : State :=
  match s.host with
  | [] => runEdge s
  | .command _ :: _ => runEdge s
  | .idle :: rest => runEdge { s with host := rest }
  | .hardwareReset :: rest => hardwareReset { s with host := rest }

/-- The next transition. -/
def nextTransition (s : State) : Host.Outcome State Fault Refusal :=
  match s.phase with
  | .IDLE => stepIdle s
  | .RUN_LOOP => .next (stepRunLoop s)

/-- A command is presented before every other input, and no RUN is in progress. -/
def presentCommand (c : Command) (s : State) : State := { s with phase := .IDLE, host := .command c :: s.host }

/-- A state in which the next STEP runs with the action of a code: configured, not DONE, and with the pair (Q[0], q1)
that the Booth decision maps to the code (30_encoding.md R80; log entry 7). A width or a count that does not allow a
step is replaced; for code 11, which no pair selects, Q[0] and q1 are left alone. -/
def armAction (code : ActionCode) (s : State) : State :=
  let legal := Config.minWidth ≤ s.n && s.n ≤ s.nmax
  let n' := if legal then s.n else Config.minWidth
  let count' := if s.count < n' then s.count else 0
  let t := { s with cfg_valid := true, n := n', count := count', log_len := count' }
  match decodeActionCode code with
  | .ok .none => { t with Q := 2 * (s.Q / 2), q1 := false }
  | .ok .add => { t with Q := 2 * (s.Q / 2), q1 := true }
  | .ok .subtract => { t with Q := 2 * (s.Q / 2) + 1, q1 := false }
  | .error _ => t

/-- The number `w` of an opcode-table row of `nbits` bits, placed so that the very next transition runs it: a command
word is presented with every operand bus 0; an action code is armed and a STEP presented, since an action runs only
inside a step (log entry 7). -/
def placeTableWord (nbits w : Nat) (s : State) : State :=
  let bits := w % 2 ^ nbits
  if nbits < 8 then presentCommand (encodeBare opStep) (armAction (BitVec.ofNat 2 bits) s)
  else presentCommand (commandOfNat bits) s

end Sys2Proof.Machine
end

