-- ==== Sys2Proof/Machine/Step.lean ====
section
/-! DEFINITION. One transition of the machine, at the transaction level (00_scope.md R18), and the host's probe. -/

namespace Sys2Proof.Machine

/-- One transition: the oldest input of the host is taken and executed (log entries 5 and 6). -/
def step (s : State) : Host.Outcome State Fault Refusal := nextTransition s

/-- `s` with the instruction of the number `w` placed where `step` takes its next input. -/
def State.withFetchWord (s : State) (nbits w : Nat) : State := placeTableWord nbits w s

end Sys2Proof.Machine
end

