-- ==== Sys2Proof/Machine/Assembler.lean ====
section
/-! DEFINITION. The host's assembler forms and the commands they stand for: 30_encoding.md R82, R83, and `.word`
(95_test_vectors.md P3). -/

namespace Sys2Proof.Machine

/-- One line of a program. -/
inductive AsmLine where
  | RESET (x y bits : Option Int)
  | STEP
  | RUN
  | CREATE (x y bits : Int)
  | SETW (bits : Int)
  | RESTART
  | MUL (x y bits : Int)
  | word (w : CmdWord)
deriving DecidableEq, Repr

/-- `RESET [x=] [y=] [bits=]`: the fields present set `sel`; the integers go on the buses mod 2^NMAX, the width as
`bits` (30_encoding.md R82). -/
def asmReset (nmax : Nat) (x y bits : Option Int) : Command :=
  encodeReset (x.map (busPattern nmax)) (y.map (busPattern nmax)) (bits.map bitsPattern)

/-- The commands of a line (30_encoding.md R83). -/
def assemble (nmax : Nat) : AsmLine → List Command
  | .RESET x y bits => [asmReset nmax x y bits]
  | .STEP => [encodeBare opStep]
  | .RUN => [encodeBare opRun]
  | .CREATE x y bits => [asmReset nmax (some x) (some y) (some bits)]
  | .SETW bits => [asmReset nmax none none (some bits)]
  | .RESTART => [asmReset nmax none none none]
  | .MUL x y bits => [asmReset nmax (some x) (some y) (some bits), encodeBare opRun]
  | .word w => [{ cmd_word := w, cmd_x := 0, cmd_y := 0, cmd_bits := 0#16 }]

/-- A program as inputs of the host. -/
def assembleAll (nmax : Nat) (prog : List AsmLine) : List HostInput :=
  (prog.flatMap (assemble nmax)).map HostInput.command

end Sys2Proof.Machine
end

