-- ==== Sys2Proof/Machine/Cycle.lean ====
section
/-! DEFINITION. The cycle level (informative, 00_scope.md R18, 70_reset_and_hazards.md R160 to R176): what one rising
clock edge does, given the pins at that edge. The host's queue plays no part here. -/

namespace Sys2Proof.Machine

/-- The input pins at a rising edge (30_encoding.md R67, 70_reset_and_hazards.md R160). -/
structure Pins where
  rst_n     : Bool
  cmd_valid : Bool
  cmd       : Command
deriving DecidableEq, Repr

/-- `cmd_ready = (rst_n = 1) and (phase = IDLE)` (70_reset_and_hazards.md R171). -/
def cmdReady (p : Pins) (s : State) : Bool := p.rst_n && decide (s.phase = .IDLE)

/-- A command is accepted at an edge where `cmd_valid = 1` and `cmd_ready = 1` (30_encoding.md R67). The command taken
is the one present at that edge (70_reset_and_hazards.md R167). -/
def accepts (p : Pins) (s : State) : Bool := p.cmd_valid && cmdReady p s

/-- The accepting edge: a configured RUN with `count < n` does its first step there (70_reset_and_hazards.md R173);
every other command completes there (R172). -/
def acceptEdge (c : Command) (s : State) : Host.Outcome State Fault Refusal :=
  match decodeCommand s.nmax c with
  | .ok .run => if s.running = true then .next (runEdge s) else exec .run s
  | .ok i => exec i s
  | .error _ => .next (respond .ILLEGAL_COMMAND s)

/-- One rising edge of `clk`. -/
def clockEdge (p : Pins) (s : State) : Host.Outcome State Fault Refusal :=
  if p.rst_n = false then .next (hardwareReset s)
  else
    match s.phase with
    | .RUN_LOOP => .next (runEdge s)
    | .IDLE => if p.cmd_valid = true then acceptEdge p.cmd s else .next (noResponse s)

/-- Several edges, oldest first. -/
def clockEdges : List Pins → State → Host.Outcome State Fault Refusal
  | [], s => .next s
  | p :: rest, s =>
    match clockEdge p s with
    | .next t => clockEdges rest t
    | .fault r => .fault r
    | .refused r => .refused r

/-- The edges from acceptance to completion (70_reset_and_hazards.md R176): `max(1, n - c)` for a configured RUN, 1 for
everything else. -/
def completionEdges (c : Command) (s : State) : Nat :=
  match decodeCommand s.nmax c with
  | .ok .run => if s.cfg_valid = true then max 1 (s.n - s.count) else 1
  | _ => 1

end Sys2Proof.Machine
end

