-- ==== Sys2Proof/Machine/Ports.lean ====
section
/-! DEFINITION. What the host reads: the observation ports (10_state.md R36 to R39), the log read port
(20_memory.md R53 to R55), the response port (30_encoding.md R79), the STEP snapshot and the RUN result
(41_engine.md R122, R126), and the packed form of a log entry (20_memory.md R51). Reads are combinational and change no
state (20_memory.md R58). -/

namespace Sys2Proof.Machine

/-! ## Observation ports -/

/-- The ports of 10_state.md R36. -/
inductive ObsPort where
  | obs_A | obs_Q | obs_M
  | obs_q1
  | obs_count
  | obs_n
  | obs_log_len
  | obs_status
  | obs_A_s | obs_Q_s | obs_M_s
  | obs_prod_u
  | obs_prod_s
deriving DecidableEq, Repr

/-- The width of a port (10_state.md R36). -/
def ObsPort.width (nmax : Nat) : ObsPort → Nat
  | .obs_A | .obs_Q | .obs_M => dw nmax
  | .obs_q1 => 1
  | .obs_count | .obs_log_len => cw nmax
  | .obs_n => bw
  | .obs_status => 8
  | .obs_A_s | .obs_Q_s | .obs_M_s => dw nmax
  | .obs_prod_u | .obs_prod_s => dw nmax

/-- The ports that are defined while `cfg_valid = 0` (10_state.md R38). -/
def ObsPort.alwaysDefined : ObsPort → Bool
  | .obs_status => true
  | .obs_log_len => true
  | _ => false

/-- The value the block drives (10_state.md R36, R37). -/
def obsValue (p : ObsPort) (s : State) : Nat :=
  match p with
  | .obs_A => s.A
  | .obs_Q => s.Q
  | .obs_M => s.M
  | .obs_q1 => s.q1.toNat
  | .obs_count => s.count
  | .obs_n => s.n
  | .obs_log_len => s.log_len
  | .obs_status => s.obs_status.toNat
  | .obs_A_s => sext s.n (dw s.nmax) s.A
  | .obs_Q_s => sext s.n (dw s.nmax) s.Q
  | .obs_M_s => sext s.n (dw s.nmax) s.M
  | .obs_prod_u => ProductU s.A s.Q s.n
  | .obs_prod_s => toTwosComplement (ProductS s.A s.Q s.n) (dw s.nmax)

/-- Reading an observation port: while `cfg_valid = 0` every port but `obs_status` and `obs_log_len` has no value, and
the read is a fault (10_state.md R38). -/
def readObs (p : ObsPort) (s : State) : Host.Outcome Nat Fault Refusal :=
  if s.cfg_valid = true ∨ p.alwaysDefined = true then .next (obsValue p s) else .fault .observationUnconfigured

/-! ## The log read port -/

/-- The outputs of the log read port other than `log_rvalid` (20_memory.md R53). -/
structure LogOut where
  log_idx    : Nat
  log_act    : ActionCode
  log_a      : Nat
  log_q      : Nat
  log_q1     : Bool
  log_m      : Nat
  log_a_s    : Nat
  log_q_s    : Nat
  log_m_s    : Nat
  log_prod_u : Nat
  log_prod_s : Nat
deriving DecidableEq, Repr

/-- What the read address carries of `a`: `log_raddr` is CW wires (00_scope.md R9, 20_memory.md R53; log entry 8). Every
index of the log fits. -/
def logAddress (nmax a : Nat) : Nat := a % 2 ^ cw nmax

/-- `log_rvalid = (cfg_valid = 1) and (log_raddr < log_len)` (20_memory.md R53). -/
def logRvalid (log_raddr : Nat) (s : State) : Bool := s.cfg_valid && decide (logAddress s.nmax log_raddr < s.log_len)

/-- The outputs for an entry, the derived ones at the current width n (20_memory.md R53, R54). -/
def logView (e : LogEntry) (s : State) : LogOut :=
  { log_idx := e.idx
    log_act := e.act.code
    log_a := e.a
    log_q := e.q
    log_q1 := e.q1
    log_m := e.m
    log_a_s := sext s.n (dw s.nmax) e.a
    log_q_s := sext s.n (dw s.nmax) e.q
    log_m_s := sext s.n (dw s.nmax) e.m
    log_prod_u := ProductU e.a e.q s.n
    log_prod_s := toTwosComplement (ProductS e.a e.q s.n) (dw s.nmax) }

/-- Reading the log port: any index is a legal address (20_memory.md R57); using an output while `log_rvalid = 0` is a
fault (20_memory.md R55). -/
def readLog (log_raddr : Nat) (s : State) : Host.Outcome LogOut Fault Refusal :=
  if logRvalid log_raddr s = true then
    match Memory.read s.Log (logAddress s.nmax log_raddr) with
    | some e => .next (logView e s)
    | none => .fault .logEntryAbsent
  else .fault .logReadInvalid

/-! ## The response port -/

/-- The `k`-th look at `rsp_status`: the status while `rsp_valid = 1`, and any value otherwise
(93_implementation_defined.md U5; log entry 11). -/
def readRspStatus (k : Nat) (s : State) : StatusCode := if s.rsp_valid = true then s.rsp_status else Config.freeRspStatus k

/-! ## Results -/

/-- The STEP snapshot after an OK STEP: `Log[log_len - 1]` (41_engine.md R122, 30_encoding.md R79). -/
def stepSnapshot (s : State) : Host.Outcome LogOut Fault Refusal := readLog (s.log_len - 1) s

/-- The entries `Log[0..k-1]` as the log read port gives them. -/
def readLogUpTo (s : State) : Nat → Option (List LogOut)
  | 0 => some []
  | k + 1 =>
    match readLogUpTo s k, readLog k s with
    | some l, .next e => some (l ++ [e])
    | _, _ => none

/-- RUN's result (41_engine.md R126). -/
structure RunResult where
  finalA          : Nat
  finalQ          : Nat
  finalQ1         : Bool
  productUnsigned : Nat
  productSigned   : Int
  log             : List LogOut
deriving DecidableEq, Repr

/-- The result after an OK RUN (41_engine.md R126). -/
def runResult (s : State) : Option RunResult :=
  match readLogUpTo s s.n with
  | some l =>
    some { finalA := s.A, finalQ := s.Q, finalQ1 := s.q1
           productUnsigned := ProductU s.A s.Q s.n
           productSigned := ProductS s.A s.Q s.n
           log := l }
  | none => none

/-- What a host that reads during a RUN accepted in `s` sees: the state after some whole number of steps, from the
count at acceptance to n (70_reset_and_hazards.md R169, 93_implementation_defined.md U6; log entry 12). -/
def duringRun (k : Nat) (s : State) : State :=
  noResponse { stepBodies (Config.freeSteps k % (s.n - s.count + 1)) s with phase := .RUN_LOOP }

/-! ## The packed log entry (20_memory.md R51) -/

/-- The packed entry word, from least significant upward `idx, act, q1, q, a, m`, the widths CW, 2, 1, NMAX, NMAX,
NMAX. -/
def LogEntry.pack (nmax : Nat) (e : LogEntry) : Nat :=
  e.idx + 2 ^ cw nmax * (e.act.code.toNat + 4 * (e.q1.toNat + 2 * (e.q + 2 ^ nmax * (e.a + 2 ^ nmax * e.m))))

/-- The entry of a packed word; action code 11 is refused (93_implementation_defined.md U9). -/
def LogEntry.unpack (nmax : Nat) (w : Nat) : Host.Outcome LogEntry Fault Refusal :=
  let w1 := w / 2 ^ cw nmax
  let w2 := w1 / 4
  let w3 := w2 / 2
  let w4 := w3 / 2 ^ nmax
  match decodeActionCode (BitVec.ofNat 2 w1) with
  | .ok act =>
    .next { idx := w % 2 ^ cw nmax, act := act, q1 := w2.testBit 0, q := w3 % 2 ^ nmax, a := w4 % 2 ^ nmax
            m := w4 / 2 ^ nmax % 2 ^ nmax }
  | .error _ => .refused .actionCodeNeverProduced

end Sys2Proof.Machine
end

