-- ==== Sys2Proof/Safety.lean ====
section
/-! DEFINITION. What the statements speak of: the invariant of every state (00_scope.md R19 and the widths of
10_state.md R20), the trace of a configured state (41_engine.md R129), and repeated commands. -/

namespace Sys2Proof.Machine

/-- A log entry's fields fit their widths (20_memory.md R51). -/
def LogEntry.fits (nmax : Nat) (e : LogEntry) : Bool :=
  decide (e.idx < 2 ^ cw nmax) && decide (e.a < 2 ^ nmax) && decide (e.q < 2 ^ nmax) && decide (e.m < 2 ^ nmax)

/-- What holds in every state that a run reaches. -/
structure StateInv (s : State) : Prop where
  /-- `4 <= NMAX <= 65535` (00_scope.md R8). -/
  nmax_legal : nmaxLegal s.nmax = true
  /-- Every register fits its physical width (10_state.md R20). -/
  physical : s.A < 2 ^ s.nmax ∧ s.Q < 2 ^ s.nmax ∧ s.M < 2 ^ s.nmax ∧ s.src_x < 2 ^ s.nmax ∧ s.src_y < 2 ^ s.nmax ∧
    s.n < 2 ^ bw
  /-- A valid configuration: the width is legal, A, Q and M fit in n bits and the count does not exceed n
  (00_scope.md R19, 10_state.md R29). -/
  configured : s.cfg_valid = true →
    Config.minWidth ≤ s.n ∧ s.n ≤ s.nmax ∧ s.A < 2 ^ s.n ∧ s.Q < 2 ^ s.n ∧ s.M < 2 ^ s.n ∧ s.count ≤ s.n
  /-- Without a configuration nothing is counted and no RUN executes (70_reset_and_hazards.md R161). -/
  unconfigured : s.cfg_valid = false → s.count = 0 ∧ s.phase = .IDLE
  /-- "log length always equals step counter" (10_state.md R32). -/
  log_len_eq : s.log_len = s.count
  /-- RUN_LOOP is a RUNNING state (41_engine.md R130, state L). -/
  busy_running : s.phase = .RUN_LOOP → s.count < s.n
  /-- The log is in canonical form. -/
  log_wf : Memory.wf s.Log = true
  /-- The log lies in the index space `0..NMAX-1` and its entries fit their fields (20_memory.md R50, R51). -/
  log_bounded : ∀ cell ∈ s.Log, cell.1 < s.nmax ∧ cell.2.fits s.nmax = true
  /-- Every index below `log_len` holds an entry. -/
  log_readable : ∀ i, i < s.log_len → (Memory.read s.Log i).isSome = true
  /-- Status codes 5 to 7 are never produced (30_encoding.md R78). -/
  status_produced : s.rsp_valid = true → s.rsp_status.toNat ≤ 4

/-- The registers a successful RESET leaves (41_engine.md R113). -/
def initialRegs (n : Nat) (src_y : Nat) : Regs := { A := 0, Q := toTwosComplement (src_y : Int) n, q1 := false }

/-- The entry of the step that starts from `r` and is the `k + 1`-th since RESET (20_memory.md R51). -/
def traceEntry (n M k : Nat) (r : Regs) : LogEntry :=
  let r' := boothStep n M r
  { idx := k + 1, act := boothDecide (r.Q.testBit 0) r.q1, a := r'.A, q := r'.Q, q1 := r'.q1, m := M }

/-- A configured state is the one that `count` iterations lead to from the stored sources, and its log is the record of
exactly those iterations, whatever mix of STEP and RUN executed them (41_engine.md R129). -/
structure Traced (s : State) : Prop where
  multiplicand : s.cfg_valid = true → s.M = toTwosComplement (s.src_x : Int) s.n
  registers : s.cfg_valid = true → s.regs = boothIter s.n s.M s.count (initialRegs s.n s.src_y)
  log : s.cfg_valid = true → ∀ k, k < s.count →
    Memory.read s.Log k = some (traceEntry s.n s.M k (boothIter s.n s.M k (initialRegs s.n s.src_y)))

/-- The same instruction `k` times, stopping at the first that does not answer a next state. -/
def execTimes (i : Instr) : Nat → State → Host.Outcome State Fault Refusal
  | 0, s => .next s
  | k + 1, s =>
    match exec i s with
    | .next t => execTimes i k t
    | .fault r => .fault r
    | .refused r => .refused r

/-- The instruction is one the host can present: a command, not an action code (30_encoding.md R69). -/
def isCommand : Instr → Bool
  | .reset _ _ _ => true
  | .step => true
  | .run => true
  | .actNone => false
  | .actAdd => false
  | .actSubtract => false

/-- Two states agree on everything the hardware reset defines; the registers it leaves unspecified and the log may
differ (70_reset_and_hazards.md R161). -/
def agreeOnDefined (s t : State) : Prop :=
  t.nmax = s.nmax ∧ t.count = s.count ∧ t.cfg_valid = s.cfg_valid ∧ t.log_len = s.log_len ∧ t.phase = s.phase ∧
  t.rsp_valid = s.rsp_valid ∧ t.host = s.host ∧ t.draws = s.draws

/-- The host's next input is a RESET command that ends with OK. -/
def nextIsSuccessfulReset (s : State) : Prop :=
  ∃ c rest x y bits, s.phase = .IDLE ∧ s.host = .command c :: rest ∧ decodeCommand s.nmax c = .ok (.reset x y bits) ∧
    (s.cfg_valid = true ∨ allSupplied x y bits = true) ∧ suppliedBitsValid s.nmax bits = true

/-- The host's next input is the hardware reset. -/
def nextIsHardwareReset (s : State) : Prop := ∃ rest, s.host = .hardwareReset :: rest

end Sys2Proof.Machine
end

