-- ==== Sys2Proof/Certificates/Slice0/Obligations.lean ====
section
/-! DEFINITION. The statements for the provers. Each docstring names the rule or the section of the spec it formalises. -/

open Sys2Proof Sys2Proof.Machine

/-! ## Reset -/

/-- 70_reset_and_hazards.md section 1 (R161): what the hardware reset defines, from any state and in any phase: the control
state, `obs_status` = 0x00, `obs_log_len` = 0, and a fault for a read of every other observation port and of every log
index. -/
def Obligations.HardwareResetLeavesUnconfigured : Prop :=
  ∀ s : State, ∀ t : State, t = hardwareReset s ∨ t = State.reset →
    t.cfg_valid = false ∧ t.phase = .IDLE ∧ t.count = 0 ∧ t.log_len = 0 ∧ t.rsp_valid = false ∧
    readObs .obs_status t = .next 0x00 ∧ readObs .obs_log_len t = .next 0 ∧
    (∀ p : ObsPort, p ≠ .obs_status → p ≠ .obs_log_len → readObs p t = .fault .observationUnconfigured) ∧
    (∀ i, readLog i t = .fault .logReadInvalid)

/-- R165: a hardware reset at any time, in either phase, aborts what is executing without a response and leaves what
70_reset_and_hazards.md R161 defines, at both levels of description; and it is the only way to abort a RUN: every other
transition in RUN_LOOP executes one step of it, and only the step that makes `count = n` ends it, with OK. -/
def Obligations.HardwareResetAtAnyTime : Prop :=
  (∀ s rest, s.host = .hardwareReset :: rest → ∃ t, step s = .next t ∧ t = hardwareReset { s with host := rest } ∧
    t.rsp_valid = false ∧ t.cfg_valid = false ∧ t.phase = .IDLE ∧ t.count = 0 ∧ t.log_len = 0) ∧
  (∀ (p : Pins) s, p.rst_n = false → ∃ t, clockEdge p s = .next t ∧ accepts p s = false ∧
    t.rsp_valid = false ∧ t.cfg_valid = false ∧ t.phase = .IDLE ∧ t.count = 0 ∧ t.log_len = 0) ∧
  (∀ s t, s.phase = .RUN_LOOP → ¬ nextIsHardwareReset s → step s = .next t →
    t.count = s.count + 1 ∧ t.regs = boothStep s.n s.M s.regs ∧ t.cfg_valid = s.cfg_valid ∧
    (t.phase = .RUN_LOOP ∨ t.count = t.n ∧ t.rsp_valid = true ∧ t.rsp_status = 0#3)) ∧
  (∀ (p : Pins) s t, s.phase = .RUN_LOOP → p.rst_n = true → clockEdge p s = .next t →
    t.count = s.count + 1 ∧ t.regs = boothStep s.n s.M s.regs ∧ t.cfg_valid = s.cfg_valid ∧
    (t.phase = .RUN_LOOP ∨ t.count = t.n ∧ t.rsp_valid = true ∧ t.rsp_status = 0#3))

/-- 00_scope.md section 5 (R19) at reset: the machine of any legal NMAX satisfies the invariant and the trace after the
hardware reset. It rests on log entries 1 and 2 (the NMAX and the register values of `State.reset`). -/
def Obligations.ResetSatisfiesInvariant : Prop :=
  StateInv State.reset ∧ Traced State.reset ∧ ∀ nmax, nmaxLegal nmax = true → StateInv (State.resetFor nmax) ∧ Traced (State.resetFor nmax)

/-- 70_reset_and_hazards.md section 1 ("no command reads one before RESET writes it"): two unconfigured states that agree
on what the hardware reset defines, and may differ in every register it leaves unspecified (`rsp_status` among them), give
the same status to every command, and a RESET that configures them gives the same state but for the log's unreadable
contents. -/
def Obligations.UnspecifiedRegistersAreNotRead : Prop :=
  ∀ (s t : State) (i : Instr), isCommand i = true → s.cfg_valid = false → agreeOnDefined s t →
    ∃ s' t', exec i s = .next s' ∧ exec i t = .next t' ∧ t'.rsp_status = s'.rsp_status ∧ t'.cfg_valid = s'.cfg_valid ∧
      (s'.cfg_valid = true → { t' with Log := [] } = { s' with Log := [] })

/-! ## RESET -/

/-- R113: the whole of RESET, every form. The operands are ones the buses can carry. `Log` is not among the fields
written: no entry is cleared. -/
def Obligations.ResetCommandSemantics : Prop :=
  ∀ (s : State) (x y : Option Nat) (bits : Option BitsBus), (Instr.reset x y bits).wellFormed s.nmax = true →
    let sel111 := x.isSome ∧ y.isSome ∧ bits.isSome
    let valid := ∀ b, bits = some b → 4 ≤ b.toNat ∧ b.toNat ≤ s.nmax
    let n' := (bits.map BitVec.toNat).getD s.n
    let sx := x.getD s.src_x
    let sy := y.getD s.src_y
    (s.cfg_valid = false → ¬ sel111 → exec (.reset x y bits) s = .next { s with rsp_valid := true, rsp_status := 3#3 }) ∧
    ((s.cfg_valid = true ∨ sel111) → ¬ valid →
      exec (.reset x y bits) s = .next { s with rsp_valid := true, rsp_status := 2#3 }) ∧
    ((s.cfg_valid = true ∨ sel111) → valid →
      exec (.reset x y bits) s = .next
        { s with
          n := n', src_x := sx, src_y := sy
          M := sx % 2 ^ n', Q := sy % 2 ^ n'
          A := 0, q1 := false, count := 0, log_len := 0
          cfg_valid := true
          rsp_valid := true, rsp_status := 0#3 })

/-- 41_engine.md section 2 (R116, "it is idempotent"): the same RESET twice gives the state it gives once, whatever its
status. -/
def Obligations.ResetIsIdempotent : Prop :=
  ∀ (s t : State) x y bits, exec (.reset x y bits) s = .next t → exec (.reset x y bits) t = .next t

/-- 41_engine.md section 2 (R116, `reset()` with no arguments): however many steps were executed before it, RESTART
leaves what it leaves without them, but for the log's unreadable contents. -/
def Obligations.RestartForgetsExecutedSteps : Prop :=
  ∀ (s : State) k, s.cfg_valid = true →
    ∃ t u, exec (.reset none none none) s = .next t ∧ exec (.reset none none none) (stepBodies k s) = .next u ∧
      { u with Log := [] } = { t with Log := [] } ∧ (∀ i, readLog i u = .fault .logReadInvalid) ∧
      u.M = toTwosComplement (s.src_x : Int) s.n ∧ u.Q = toTwosComplement (s.src_y : Int) s.n

/-- 10_state.md section 3 (R30) and 30_encoding.md section 3 (R72): storing an operand mod 2^NMAX loses nothing, for an
integer of any sign and magnitude and every width up to NMAX. -/
def Obligations.StoredSourceLosesNothing : Prop :=
  ∀ (v : Int) (n nmax : Nat), n ≤ nmax → toTwosComplement (busPattern nmax v : Int) n = toTwosComplement v n

/-- 40_datapath.md section 5 (R107): two RESETs whose operands agree mod 2^n at the same width lead to the same run, but
for the stored sources. -/
def Obligations.ProductDependsOnLowBitsOnly : Prop :=
  ∀ (s : State) (x x' y y' : Nat) (b : BitsBus), bitsValid s.nmax b = true →
    x % 2 ^ b.toNat = x' % 2 ^ b.toNat → y % 2 ^ b.toNat = y' % 2 ^ b.toNat →
    ∃ t t' u u', exec (.reset (some x) (some y) (some b)) s = .next t ∧ exec (.reset (some x') (some y') (some b)) s = .next t' ∧
      exec .run t = .next u ∧ exec .run t' = .next u' ∧
      t' = { t with src_x := t'.src_x, src_y := t'.src_y } ∧ u' = { u with src_x := u'.src_x, src_y := u'.src_y }

/-! ## STEP -/

/-- R120: the whole of STEP. -/
def Obligations.StepCommandSemantics : Prop :=
  ∀ s : State,
    let act := boothDecide (s.Q.testBit 0) s.q1
    let A1 := match act with
      | .none => s.A
      | .add => maskedAdd s.A s.M s.n
      | .subtract => maskedSub s.A s.M s.n
    let r := shiftRightArithmeticAQ { A := A1, Q := s.Q, q1 := s.q1 } s.n
    let k := s.count + 1
    (s.cfg_valid = false → exec .step s = .next { s with rsp_valid := true, rsp_status := 3#3 }) ∧
    (s.cfg_valid = true → s.count = s.n → exec .step s = .next { s with rsp_valid := true, rsp_status := 1#3 }) ∧
    (s.cfg_valid = true → s.count ≠ s.n →
      exec .step s = .next
        { s with
          A := r.A, Q := r.Q, q1 := r.q1
          count := k
          Log := Memory.write s.Log s.log_len { idx := k, act := act, a := r.A, q := r.Q, q1 := r.q1, m := s.M }
          log_len := s.log_len + 1
          rsp_valid := true, rsp_status := 0#3 })

/-- R121: any number of STEPs in DONE return DONE and change nothing but the response register. -/
def Obligations.StepsInDoneChangeNothing : Prop :=
  ∀ (s : State) k, s.cfg_valid = true → s.count = s.n →
    execTimes .step (k + 1) s = .next { s with rsp_valid := true, rsp_status := 1#3 }

/-- R52: the log is written by appending only. An executed step writes the entry at `log_len` and raises `log_len`, in
the same transition as its registers; no instruction changes an entry below `log_len`, nor one outside the indices that
its steps append at; a RESET that ends with OK empties the log by `log_len` alone. -/
def Obligations.StepAppendsOneEntry : Prop :=
  (∀ s : State, ∃ t, exec .step s = .next t ∧
    (s.cfg_valid = true → s.count ≠ s.n →
      t.log_len = s.log_len + 1 ∧
      Memory.read t.Log s.log_len = some { idx := t.count, act := boothDecide (s.Q.testBit 0) s.q1, a := t.A, q := t.Q, q1 := t.q1, m := t.M } ∧
      ∀ i, i ≠ s.log_len → Memory.read t.Log i = Memory.read s.Log i) ∧
    (s.cfg_valid = false ∨ s.count = s.n → t.log_len = s.log_len ∧ ∀ i, Memory.read t.Log i = Memory.read s.Log i)) ∧
  (∀ (i : Instr) (s : State), ∃ t, exec i s = .next t ∧
    (∀ j, j < s.log_len ∨ t.log_len ≤ j → Memory.read t.Log j = Memory.read s.Log j) ∧
    (i ≠ .step → i ≠ .run → t.Log = s.Log)) ∧
  (∀ (s : State) x y bits, ∃ t, exec (.reset x y bits) s = .next t ∧ (t.rsp_status = 0#3 → t.log_len = 0))

/-- R122: after an OK STEP the snapshot is `Log[log_len - 1]`; its fields, signed interpretations and products are what
the observation ports show at that moment. -/
def Obligations.SnapshotEqualsObservationPorts : Prop :=
  ∀ s : State, StateInv s → s.running = true → ∃ t o, exec .step s = .next t ∧ stepSnapshot t = .next o ∧
    readObs .obs_count t = .next o.log_idx ∧ o.log_act = (boothDecide (s.Q.testBit 0) s.q1).code ∧
    readObs .obs_A t = .next o.log_a ∧ readObs .obs_Q t = .next o.log_q ∧ readObs .obs_q1 t = .next o.log_q1.toNat ∧
    readObs .obs_M t = .next o.log_m ∧
    readObs .obs_A_s t = .next o.log_a_s ∧ readObs .obs_Q_s t = .next o.log_q_s ∧ readObs .obs_M_s t = .next o.log_m_s ∧
    readObs .obs_prod_u t = .next o.log_prod_u ∧ readObs .obs_prod_s t = .next o.log_prod_s

/-- R124: after k STEPs from a fresh engine, count and log length are k; an OK STEP raises both by 1, any other status
changes neither. -/
def Obligations.StepCountLaw : Prop :=
  (∀ (s : State) k, s.cfg_valid = true → s.count = 0 → s.log_len = 0 → k ≤ s.n →
    ∃ t, execTimes .step k s = .next t ∧ t.count = k ∧ t.log_len = k) ∧
  (∀ s : State, ∃ t, exec .step s = .next t ∧
    (t.rsp_status = 0#3 → t.count = s.count + 1 ∧ t.log_len = s.log_len + 1) ∧
    (t.rsp_status ≠ 0#3 → t.count = s.count ∧ t.log_len = s.log_len))

/-! ## RUN -/

/-- R127, with the loop of 41_engine.md section 4 (R125) that it follows from: RUN is `while count < n` of the step body.
With `count < n` it is one step body and then RUN; with `count = n` it executes no step, writes nothing and answers OK;
it never answers DONE; unconfigured it answers NOT_CONFIGURED. A count above n, which no run reaches, is as DONE
(log entry 13). -/
def Obligations.RunIsTheWhileLoop : Prop :=
  ∀ s : State,
    (s.cfg_valid = false → exec .run s = .next { s with rsp_valid := true, rsp_status := 3#3 }) ∧
    (s.cfg_valid = true → s.count < s.n → exec .run s = exec .run (stepBody s)) ∧
    (s.cfg_valid = true → ¬ s.count < s.n →
      exec .run s = .next { s with rsp_valid := true, rsp_status := 0#3 } ∧
      runResult { s with rsp_valid := true, rsp_status := 0#3 } = runResult s) ∧
    ∃ t, exec .run s = .next t ∧ t.rsp_status ≠ 1#3

/-- 41_engine.md section 4 (R125, R128) and the frame of RUN: a RUN of a configured engine ends with `count = log_len = n` and
status OK, the registers are those after the remaining iterations, the log gains the entry of each of them at its own
index and no other entry changes, and nothing else is written. -/
def Obligations.RunCompletesRemainingSteps : Prop :=
  ∀ s : State, StateInv s → s.cfg_valid = true →
    let r := fun j => boothIter s.n s.M j s.regs
    let d := s.n - s.count
    ∃ t, exec .run s = .next t ∧
      t = { s with
            A := (r d).A, Q := (r d).Q, q1 := (r d).q1
            count := s.n, log_len := s.n, Log := t.Log
            rsp_valid := true, rsp_status := 0#3 } ∧
      t.done = true ∧ Memory.wf t.Log = true ∧
      (∀ j, j < d → Memory.read t.Log (s.log_len + j) = some (traceEntry s.n s.M (s.count + j) (r j))) ∧
      (∀ i, i < s.log_len ∨ s.n ≤ i → Memory.read t.Log i = Memory.read s.Log i)

/-- 41_engine.md section 4 (R128, R129): RUN gives the state that `n - count` STEPs give. -/
def Obligations.RunEqualsRemainingSteps : Prop :=
  ∀ s : State, s.cfg_valid = true → s.count < s.n → execTimes .step (s.n - s.count) s = exec .run s

/-- 41_engine.md section 4 (R126): after RUN the result holds the registers, both products and the full log, as the ports
show them. -/
def Obligations.RunResultIsOnThePorts : Prop :=
  ∀ s : State, StateInv s → s.cfg_valid = true → ∃ t res, exec .run s = .next t ∧ runResult t = some res ∧
    readObs .obs_A t = .next res.finalA ∧ readObs .obs_Q t = .next res.finalQ ∧ readObs .obs_q1 t = .next res.finalQ1.toNat ∧
    readObs .obs_prod_u t = .next res.productUnsigned ∧
    readObs .obs_prod_s t = .next (toTwosComplement res.productSigned (dw s.nmax)) ∧
    res.log.length = s.n ∧ ∀ i o, res.log[i]? = some o → readLog i t = .next o

/-! ## The action codes -/

/-- 41_engine.md section 3 (R119) and 30_encoding.md section 6 (R80): the pair (Q[0], q1) selects the action, the action's whole
effect is what A receives, and its code. The spec gives an action a meaning inside a step; that `exec` of an action stands
alone, in every state and with no status, is the model's choice (log entry 7). -/
def Obligations.ActionsDriveTheAdder : Prop :=
  (boothDecide true false = .subtract ∧ boothDecide false true = .add ∧ boothDecide false false = .none ∧
    boothDecide true true = .none) ∧
  (∀ s : State,
    exec .actNone s = .next { s with A := s.A } ∧
    exec .actAdd s = .next { s with A := (s.A + s.M) % 2 ^ s.n } ∧
    exec .actSubtract s = .next { s with A := (s.A + ((2 ^ s.n - 1 - s.M) + 1) % 2 ^ s.n) % 2 ^ s.n }) ∧
  (∀ Q0 q1, (boothDecide Q0 q1).code = BitVec.ofBool (Q0 && !q1) ++ BitVec.ofBool (q1 && !Q0)) ∧
  (Action.code .none = 0b00#2 ∧ Action.code .add = 0b01#2 ∧ Action.code .subtract = 0b10#2)

/-- 41_engine.md section 3 (R120): a STEP is the action the Booth decision selects, then the coupled shift of what that
action left, for A, Q and q1. The action executed alone is the model's choice (log entry 7). -/
def Obligations.StepRunsTheSelectedAction : Prop :=
  ∀ s : State, s.cfg_valid = true → s.count ≠ s.n →
    ∃ u t, exec (boothDecide (s.Q.testBit 0) s.q1).instr s = .next u ∧ exec .step s = .next t ∧
      t.regs = shiftRightArithmeticAQ u.regs s.n

/-! ## The datapath -/

/-- R92: the round trip, for every integer and every width from 1. -/
def Obligations.TwosComplementRoundTrip : Prop :=
  ∀ (v : Int) (b : Nat), 1 ≤ b →
    let r := fromTwosComplement (toTwosComplement v b) b
    r ≥ -2 ^ (b - 1) ∧ r ≤ 2 ^ (b - 1) - 1 ∧ r % 2 ^ b = v % 2 ^ b ∧ (-2 ^ (b - 1) ≤ v → v ≤ 2 ^ (b - 1) - 1 → r = v)

/-- 40_datapath.md section 2 (R94): the negate-and-add form is the difference mod 2^n. -/
def Obligations.MaskedSubIsModularDifference : Prop :=
  ∀ a b n : Nat, a < 2 ^ n → b < 2 ^ n → (maskedSub a b n : Int) = ((a : Int) - (b : Int)) % 2 ^ n

/-- 40_datapath.md section 2 (R95): the one-adder hardware form gives maskedAdd and maskedSub. -/
def Obligations.OneAdderFormAgrees : Prop :=
  ∀ A M n : Nat, A < 2 ^ n → M < 2 ^ n →
    adderHardware false A M n = maskedAdd A M n ∧ adderHardware true A M n = maskedSub A M n

/-- 40_datapath.md section 3 (R99): the coupled shift is the floor halving of the signed 2n-bit double register, and q1
takes the bit shifted out. -/
def Obligations.ShiftIsSignedHalving : Prop :=
  ∀ (r : Regs) (n : Nat), 1 ≤ n → r.A < 2 ^ n → r.Q < 2 ^ n →
    let r' := shiftRightArithmeticAQ r n
    let P := ProductU r.A r.Q n
    (ProductU r'.A r'.Q n : Int) = (fromTwosComplement P (2 * n) / 2) % 2 ^ (2 * n) ∧ r'.q1 = P.testBit 0

/-- R103: adder, subtractor and shift outputs stay in [0, 2^n - 1]. -/
def Obligations.ArithmeticClosure : Prop :=
  ∀ (A B : Nat) (r : Regs) (n : Nat), 1 ≤ n → r.A < 2 ^ n → r.Q < 2 ^ n →
    maskedAdd A B n < 2 ^ n ∧ maskedSub A B n < 2 ^ n ∧
    (shiftRightArithmeticAQ r n).A < 2 ^ n ∧ (shiftRightArithmeticAQ r n).Q < 2 ^ n

/-- R100, R101: the ranges of the two products, and the sign of the signed one. -/
def Obligations.ProductViews : Prop :=
  ∀ A Q n : Nat, 1 ≤ n → A < 2 ^ n → Q < 2 ^ n →
    ProductU A Q n = A * 2 ^ n + Q ∧ ProductU A Q n ≤ 2 ^ (2 * n) - 1 ∧
    ProductS A Q n = fromTwosComplement (ProductU A Q n) (2 * n) ∧
    -2 ^ (2 * n - 1) ≤ ProductS A Q n ∧ ProductS A Q n ≤ 2 ^ (2 * n - 1) - 1 ∧
    (ProductS A Q n < 0 ↔ A.testBit (n - 1) = true)

/-! ## The product -/

/-- 40_datapath.md section 5 (R105, and 90_conflicts.md C1): RESET with any operands and any legal width, then RUN, gives
the signed product of the operands' n-bit values, and its negation exactly where the multiplicand is the most negative
value. -/
def Obligations.BoothProductOfResetThenRun : Prop :=
  ∀ (s : State) (vx vy : Int) (b : BitsBus), bitsValid s.nmax b = true →
    let n := b.toNat
    let x := fromTwosComplement (toTwosComplement vx n) n
    let y := fromTwosComplement (toTwosComplement vy n) n
    ∃ t u, exec (.reset (some (busPattern s.nmax vx)) (some (busPattern s.nmax vy)) (some b)) s = .next t ∧
      exec .run t = .next u ∧ u.n = n ∧ u.done = true ∧
      (x ≠ -2 ^ (n - 1) → ProductS u.A u.Q n = x * y) ∧
      (x = -2 ^ (n - 1) → ProductS u.A u.Q n = -(x * y))

/-- 70_reset_and_hazards.md section 5 (R179) with 40_datapath.md section 5 (R105): in every DONE state that the
invariant and the trace allow, whatever mix of STEP and RUN led to it, the ports show the product of the stored
sources. -/
def Obligations.DoneStateHoldsProduct : Prop :=
  ∀ s : State, StateInv s → Traced s → s.done = true →
    let x := fromTwosComplement (toTwosComplement (s.src_x : Int) s.n) s.n
    let y := fromTwosComplement (toTwosComplement (s.src_y : Int) s.n) s.n
    let p := if x = -2 ^ (s.n - 1) then -(x * y) else x * y
    ProductS s.A s.Q s.n = p ∧ readObs .obs_prod_s s = .next (toTwosComplement p (dw s.nmax))

/-! ## Invariants -/

/-- 00_scope.md section 5 (R19): the invariant is kept by every transition, from every state that satisfies it. -/
def Obligations.InvariantKeptByStep : Prop := ∀ s t : State, StateInv s → step s = .next t → StateInv t

/-- 41_engine.md section 4 (R129): the registers and the log of a configured state are a function of the stored sources,
the width and the count alone, after every transition. -/
def Obligations.TraceKeptByStep : Prop := ∀ s t : State, StateInv s → Traced s → step s = .next t → Traced t

/-- 70_reset_and_hazards.md sections 3 and 4 (R169, R170): the invariant and the trace hold after every clock edge, in the
middle of a RUN too. -/
def Obligations.InvariantKeptByClockEdge : Prop :=
  ∀ (p : Pins) (s t : State), StateInv s → Traced s → clockEdge p s = .next t → StateInv t ∧ Traced t

/-- 10_state.md sections 2 and 3 (R24, R29, R30): M, n and the stored sources change only by a RESET that ends with OK or
by the hardware reset. -/
def Obligations.ConfigurationChangesOnlyByReset : Prop :=
  ∀ s t : State, step s = .next t →
    t.M ≠ s.M ∨ t.n ≠ s.n ∨ t.src_x ≠ s.src_x ∨ t.src_y ≠ s.src_y → nextIsSuccessfulReset s ∨ nextIsHardwareReset s

/-- 10_state.md section 3 (R31): only a RESET with all three parameters that ends with OK sets `cfg_valid`, and only the
hardware reset clears it. -/
def Obligations.ConfiguredOnlyByFullReset : Prop :=
  ∀ s t : State, step s = .next t →
    (s.cfg_valid = false → t.cfg_valid = true →
      ∃ c rest, s.host = .command c :: rest ∧ c.cmd_word = 0x71#8 ∧ t.rsp_valid = true ∧ t.rsp_status = 0#3) ∧
    (s.cfg_valid = true → t.cfg_valid = false → nextIsHardwareReset s)

/-- 00_scope.md section 3 (R7, R8) and 10_state.md section 6 (R40): no transition changes NMAX, and an executed command
changes neither the host's queue, nor the phase, nor the draws of free values, nor any log entry below `log_len`. The last
clause, that an action executed alone writes A only, in every state and with no status, is the model's choice
(log entry 7). -/
def Obligations.CommandFrame : Prop :=
  (∀ s t : State, step s = .next t → t.nmax = s.nmax) ∧
  (∀ (i : Instr) (s : State), ∃ t, exec i s = .next t ∧
    t.nmax = s.nmax ∧ t.host = s.host ∧ t.phase = s.phase ∧ t.draws = s.draws ∧
    (Memory.wf s.Log = true → Memory.wf t.Log = true) ∧
    (∀ j, j < s.log_len → Memory.read t.Log j = Memory.read s.Log j) ∧
    (isCommand i = false → t = { s with A := t.A }))

/-! ## Statuses -/

/-- R146: an error status leaves the state exactly as it was; so does DONE (R144). The response register carries the status
and is set at every completion (10_state.md R34; log entry 4). -/
def Obligations.ErrorStatusesWriteNothing : Prop :=
  ∀ (s : State) (c : Command), ∃ t, acceptCommand c s = .next t ∧ t.rsp_valid = true ∧
    (t.rsp_status ≠ 0#3 → t = { s with rsp_valid := true, rsp_status := t.rsp_status })

/-- R147: when several statuses apply, the first of ILLEGAL_COMMAND, NOT_CONFIGURED, INVALID_CONFIGURATION, DONE, OK is
returned; a completed command is never followed by a second status. -/
def Obligations.StatusPriority : Prop :=
  ∀ (s : State) (c : Command),
    let w := c.cmd_word
    let isReset := w.extractLsb' 0 4 = 1#4
    ∃ t, acceptCommand c s = .next t ∧
      t.rsp_status =
        (if legalWord w = false then 4#3
        else if s.cfg_valid = false ∧ w ≠ 0x71#8 then 3#3
        else if isReset ∧ w.getLsbD 6 = true ∧ ¬ (4 ≤ c.cmd_bits.toNat ∧ c.cmd_bits.toNat ≤ s.nmax) then 2#3
        else if w = 0x02#8 ∧ s.count = s.n then 1#3
        else 0#3) ∧
      (s.phase = .IDLE → s.host = [] → ∃ u, step t = .next u ∧ u.rsp_valid = false)

/-- R39: the fields of `obs_status`, what they are after the hardware reset, and that a transition in which the host
presents nothing and no RUN executes changes none of them. -/
def Obligations.StatusWordFields : Prop :=
  (∀ s : State,
    s.obs_status.getLsbD 0 = s.cfg_valid ∧
    s.obs_status.getLsbD 1 = (s.cfg_valid && decide (s.count = s.n)) ∧
    s.obs_status.getLsbD 2 = decide (s.phase = .RUN_LOOP) ∧
    (∀ i, 3 ≤ i → s.obs_status.getLsbD i = false) ∧
    readObs .obs_status s = .next s.obs_status.toNat) ∧
  (∀ s : State, (hardwareReset s).obs_status = 0#8) ∧
  (∀ s : State, s.phase = .IDLE → (s.host = [] ∨ ∃ rest, s.host = .idle :: rest) →
    ∃ t, step s = .next t ∧ t.obs_status = s.obs_status)

/-- R110: a configured state is RUNNING exactly with `count < n` and DONE exactly with `count = n`, an unconfigured one
neither; a RESET that ends with OK leaves the engine RUNNING with count 0, never in DONE; the engine enters DONE only by
a command or a RUN edge that makes `count = n` from below, and leaves it only by a RESET or the hardware reset. -/
def Obligations.EngineStates : Prop :=
  (∀ s : State, (s.cfg_valid = true → (s.running = true ↔ s.count < s.n) ∧ (s.done = true ↔ s.count = s.n)) ∧
    (s.cfg_valid = false → s.running = false ∧ s.done = false)) ∧
  (∀ s : State, StateInv s → s.cfg_valid = true → (s.running = true ↔ ¬ s.done = true)) ∧
  (∀ (s : State) x y bits, StateInv s → ∃ t, exec (.reset x y bits) s = .next t ∧
    (t.rsp_status = 0#3 → t.running = true ∧ t.done = false ∧ t.count = 0)) ∧
  (∀ s t : State, StateInv s → step s = .next t →
    (s.done = false → t.done = true → s.running = true ∧ t.n = s.n ∧ s.count < t.count ∧ t.count = t.n) ∧
    (s.done = true → t.done = false → nextIsSuccessfulReset s ∨ nextIsHardwareReset s))

/-! ## Decoding -/

/-- R76: the ten legal words, whatever stands on the buses, and the match and mask of each row. -/
def Obligations.LegalWordsExactly : Prop :=
  ∀ (nmax : Nat) (c : Command),
    ((∃ i, decodeCommand nmax c = .ok i) ↔
      c.cmd_word ∈ [0x01#8, 0x11#8, 0x21#8, 0x31#8, 0x41#8, 0x51#8, 0x61#8, 0x71#8, 0x02#8, 0x03#8]) ∧
    ((∃ x y b, decodeCommand nmax c = .ok (.reset x y b)) ↔ c.cmd_word &&& 0x8F#8 = 0x01#8) ∧
    (decodeCommand nmax c = .ok .step ↔ c.cmd_word &&& 0xFF#8 = 0x02#8) ∧
    (decodeCommand nmax c = .ok .run ↔ c.cmd_word &&& 0xFF#8 = 0x03#8)

/-- R143: a word outside the ten legal ones is taken like any command, completes with `rsp_status = 4` and writes no state,
configured or not, before any command executes. -/
def Obligations.IllegalWordsAnswerIllegalCommand : Prop :=
  ∀ (s : State) (c : Command) rest, s.phase = .IDLE → s.host = .command c :: rest →
    c.cmd_word ∉ [0x01#8, 0x11#8, 0x21#8, 0x31#8, 0x41#8, 0x51#8, 0x61#8, 0x71#8, 0x02#8, 0x03#8] →
    step s = .next { s with host := rest, rsp_valid := true, rsp_status := 4#3 }

/-- 30_encoding.md section 3 (R75): a command is decoded the same whatever the buses it does not read carry. -/
def Obligations.UnreadBusesAreIgnored : Prop :=
  ∀ (nmax : Nat) (c d : Command), d.cmd_word = c.cmd_word →
    (c.cmd_word.getLsbD 4 = true → d.cmd_x = c.cmd_x) → (c.cmd_word.getLsbD 5 = true → d.cmd_y = c.cmd_y) →
    (c.cmd_word.getLsbD 6 = true → d.cmd_bits = c.cmd_bits) → decodeCommand nmax d = decodeCommand nmax c

/-- 30_encoding.md sections 2 to 6: decoding an encoded well-formed instruction gives it back, for every instruction and
every operand the buses can carry. -/
def Obligations.DecodeOfEncode : Prop :=
  ∀ (nmax : Nat) (i : Instr), i.wellFormed nmax = true → decode nmax (encode i) = .ok i

/-- 30_encoding.md sections 2 to 6: what the decoder gives is well formed, and encoding it gives the word or code back,
with the buses the word selects. -/
def Obligations.EncodeOfDecode : Prop :=
  (∀ (nmax : Nat) (c : Command) i, decodeCommand nmax c = .ok i →
    i.wellFormed nmax = true ∧
    encode i = .command
      { cmd_word := c.cmd_word
        cmd_x := if c.cmd_word.getLsbD 4 then c.cmd_x % 2 ^ nmax else 0
        cmd_y := if c.cmd_word.getLsbD 5 then c.cmd_y % 2 ^ nmax else 0
        cmd_bits := if c.cmd_word.getLsbD 6 then c.cmd_bits else 0#16 }) ∧
  (∀ (nmax : Nat) (code : ActionCode) i, decode nmax (.action code) = .ok i → i.wellFormed nmax = true ∧ encode i = .action code)

/-- 30_encoding.md sections 2 and 6 (R68 to R70, R80): words written out bit by bit decode to what they stand for, at
NMAX = 8. -/
def Obligations.WrittenOutWordsDecode : Prop :=
  decodeCommand 8 ⟨0b01110001#8, 0x03, 0xFC, 4#16⟩ = .ok (.reset (some 0x03) (some 0xFC) (some 4#16)) ∧
  decodeCommand 8 ⟨0b00010001#8, 0x02, 0xFF, 7#16⟩ = .ok (.reset (some 0x02) none none) ∧
  decodeCommand 8 ⟨0b00100001#8, 0x02, 0xFF, 7#16⟩ = .ok (.reset none (some 0xFF) none) ∧
  decodeCommand 8 ⟨0b01000001#8, 0x02, 0xFF, 7#16⟩ = .ok (.reset none none (some 7#16)) ∧
  decodeCommand 8 ⟨0b00000010#8, 0, 0, 0#16⟩ = .ok .step ∧
  decodeCommand 8 ⟨0b00000011#8, 0, 0, 0#16⟩ = .ok .run ∧
  decodeCommand 8 ⟨0b00010010#8, 0, 0, 0#16⟩ = .error .selNotZero ∧
  decodeCommand 8 ⟨0b10000001#8, 0, 0, 0#16⟩ = .error .reservedBitSet ∧
  decode 8 (.action 0b00#2) = .ok .actNone ∧ decode 8 (.action 0b01#2) = .ok .actAdd ∧
  decode 8 (.action 0b10#2) = .ok .actSubtract ∧ decode 8 (.action 0b11#2) = .error .reservedAction

/-- R83: the pseudo-instructions and the words they expand to. -/
def Obligations.PseudoInstructionsExpand : Prop :=
  ∀ (nmax : Nat) (x y bits : Int),
    assemble nmax (.CREATE x y bits) = assemble nmax (.RESET (some x) (some y) (some bits)) ∧
    assemble nmax (.SETW bits) = assemble nmax (.RESET none none (some bits)) ∧
    assemble nmax .RESTART = assemble nmax (.RESET none none none) ∧
    assemble nmax (.MUL x y bits) = assemble nmax (.RESET (some x) (some y) (some bits)) ++ assemble nmax .RUN ∧
    (assemble nmax (.CREATE x y bits)).map (·.cmd_word) = [0x71#8] ∧
    (assemble nmax (.SETW bits)).map (·.cmd_word) = [0x41#8] ∧
    (assemble nmax .RESTART).map (·.cmd_word) = [0x01#8] ∧
    (assemble nmax (.MUL x y bits)).map (·.cmd_word) = [0x71#8, 0x03#8]

/-! ## The transition -/

/-- 41_engine.md section 1 (R111): when the host's oldest input is a command whose word decodes to `i`, the transition
is `exec i` with that input taken from the queue; nothing else is done around it. -/
def Obligations.StepRunsTheDecodedCommand : Prop :=
  ∀ (s : State) (c : Command) rest i, s.phase = .IDLE → s.host = .command c :: rest → decodeCommand s.nmax c = .ok i →
    step s = exec i { s with host := rest }

/-- 60_exceptions.md sections 1 and 2 (R145, R148): no transition and no clock edge ever stops the machine. -/
def Obligations.NoTransitionStops : Prop :=
  (∀ s : State, ∃ t, step s = .next t) ∧ (∀ (p : Pins) (s : State), ∃ t, clockEdge p s = .next t)

/-- 70_reset_and_hazards.md section 3 (R166) and 41_engine.md section 5 (R130, state L): a command presented during
RUN_LOOP is not accepted: it stays first in the queue while one step executes. -/
def Obligations.BusyCommandWaits : Prop :=
  ∀ (s : State) (c : Command) rest, s.phase = .RUN_LOOP → s.host = .command c :: rest →
    ∃ t, step s = .next t ∧ t.host = .command c :: rest ∧ t.count = s.count + 1 ∧ t.regs = boothStep s.n s.M s.regs ∧
      (t.count = t.n → t.phase = .IDLE ∧ t.rsp_valid = true ∧ t.rsp_status = 0#3) ∧
      (t.count ≠ t.n → t.phase = .RUN_LOOP ∧ t.rsp_valid = false)

/-! ## Reads -/

/-- R38: while unconfigured, a read of an observation port is a fault for every port but two. -/
def Obligations.UnconfiguredReadsFault : Prop :=
  ∀ (s : State) (p : ObsPort), s.cfg_valid = false →
    (p ≠ .obs_status → p ≠ .obs_log_len → readObs p s = .fault .observationUnconfigured) ∧
    (readObs .obs_status s = .next s.obs_status.toNat ∧ readObs .obs_log_len s = .next s.log_len)

/-- R36, R37: the value every observation port drives in a configured state, and that it fits the port's width. The two
ports that 10_state.md R38 leaves defined while unconfigured drive theirs in every state. -/
def Obligations.PortValuesFitTheirPorts : Prop :=
  (∀ s : State, s.cfg_valid = true →
    readObs .obs_A s = .next s.A ∧ readObs .obs_Q s = .next s.Q ∧ readObs .obs_M s = .next s.M ∧
    readObs .obs_q1 s = .next s.q1.toNat ∧ readObs .obs_count s = .next s.count ∧ readObs .obs_n s = .next s.n ∧
    readObs .obs_A_s s = .next (toTwosComplement (fromTwosComplement s.A s.n) (2 * s.nmax)) ∧
    readObs .obs_Q_s s = .next (toTwosComplement (fromTwosComplement s.Q s.n) (2 * s.nmax)) ∧
    readObs .obs_M_s s = .next (toTwosComplement (fromTwosComplement s.M s.n) (2 * s.nmax)) ∧
    readObs .obs_prod_u s = .next (ProductU s.A s.Q s.n) ∧
    readObs .obs_prod_s s = .next (toTwosComplement (ProductS s.A s.Q s.n) (2 * s.nmax))) ∧
  (∀ s : State, readObs .obs_log_len s = .next s.log_len ∧ readObs .obs_status s = .next s.obs_status.toNat) ∧
  (∀ (s : State) (p : ObsPort), StateInv s → s.cfg_valid = true → ∃ v, readObs p s = .next v ∧
    v < 2 ^ match p with
      | .obs_q1 => 1
      | .obs_count | .obs_log_len => cw s.nmax
      | .obs_n => 16
      | .obs_status => 8
      | .obs_A | .obs_Q | .obs_M | .obs_A_s | .obs_Q_s | .obs_M_s | .obs_prod_u | .obs_prod_s => 2 * s.nmax)

/-- 20_memory.md section 2 (R53, R55): the log port, whose address is CW bits, is valid exactly below `log_len` of a
configured engine; then it gives the entry's fields, and otherwise the read is a fault. Every index up to NMAX has an
address. -/
def Obligations.LogPortValidity : Prop :=
  ∀ (s : State) (log_raddr : Nat), StateInv s →
    let i := log_raddr % 2 ^ cw s.nmax
    (log_raddr ≤ s.nmax → i = log_raddr) ∧
    (logRvalid log_raddr s = true ↔ s.cfg_valid = true ∧ i < s.log_len) ∧
    (logRvalid log_raddr s = true → ∃ e o, Memory.read s.Log i = some e ∧ readLog log_raddr s = .next o ∧
      o.log_idx = e.idx ∧ o.log_act = e.act.code ∧ o.log_a = e.a ∧ o.log_q = e.q ∧ o.log_q1 = e.q1 ∧ o.log_m = e.m) ∧
    (logRvalid log_raddr s = false → readLog log_raddr s = .fault .logReadInvalid)

/-- 20_memory.md sections 1 and 2 (R51, R54): the log port gives the record of every executed step: the 1-based index,
the action, the registers after it, their signed views and the products. -/
def Obligations.LogRecordsEveryStep : Prop :=
  ∀ (s : State) (k : Nat), StateInv s → Traced s → s.cfg_valid = true → k < s.count →
    let r := boothIter s.n s.M k (initialRegs s.n s.src_y)
    let r' := boothIter s.n s.M (k + 1) (initialRegs s.n s.src_y)
    readLog k s = .next
      { log_idx := k + 1, log_act := (boothDecide (r.Q.testBit 0) r.q1).code
        log_a := r'.A, log_q := r'.Q, log_q1 := r'.q1, log_m := s.M
        log_a_s := sext s.n (dw s.nmax) r'.A, log_q_s := sext s.n (dw s.nmax) r'.Q, log_m_s := sext s.n (dw s.nmax) s.M
        log_prod_u := ProductU r'.A r'.Q s.n
        log_prod_s := toTwosComplement (ProductS r'.A r'.Q s.n) (dw s.nmax) }

/-- 20_memory.md section 1 (R51): a packed entry word holds every field, and unpacking it gives the entry back. -/
def Obligations.PackedEntryRoundTrip : Prop :=
  ∀ (nmax : Nat) (e : LogEntry), e.fits nmax = true →
    e.pack nmax < 2 ^ (cw nmax + 3 + 3 * nmax) ∧ LogEntry.unpack nmax (e.pack nmax) = .next e

/-- 00_scope.md section 3 (R9): CW is the least w with `NMAX < 2^w`. -/
def Obligations.CounterWidthIsLeast : Prop :=
  ∀ nmax : Nat, nmaxLegal nmax = true → nmax < 2 ^ cw nmax ∧ ∀ w, nmax < 2 ^ w → cw nmax ≤ w

/-! ## The cycle level -/

/-- 70_reset_and_hazards.md section 4 (R170, R173, R176): a RUN accepted with `count < n` takes `n - count` edges, whatever the
command pins carry after the accepting edge, and ends in the state and status of the transaction. -/
def Obligations.CycleRunEqualsTransaction : Prop :=
  ∀ (s : State) (p : Pins) (rest : List Pins), s.phase = .IDLE → s.running = true → accepts p s = true →
    decodeCommand s.nmax p.cmd = .ok .run → (∀ p' ∈ rest, p'.rst_n = true) → rest.length + 1 = s.n - s.count →
    clockEdges (p :: rest) s = exec .run s ∧ completionEdges p.cmd s = rest.length + 1

/-- R172: every command but a RUN with steps to do completes at its accepting edge. -/
def Obligations.OtherCommandsCompleteAtAcceptance : Prop :=
  ∀ (s : State) (p : Pins), accepts p s = true →
    (decodeCommand s.nmax p.cmd ≠ .ok .run ∨ s.running = false) → clockEdge p s = acceptCommand p.cmd s

/-- 70_reset_and_hazards.md section 3 (R169): between the accepting edge and completion the state is the one after some
whole number of step bodies, and no command is accepted; and whatever the free value, the transaction level's read during
a RUN sees such a state, from the count at acceptance to n. -/
def Obligations.MidRunStatesAreWholeSteps : Prop :=
  (∀ (s : State) k, ∃ j, j ≤ s.n - s.count ∧
    duringRun k s = { stepBodies j s with phase := .RUN_LOOP, rsp_valid := false }) ∧
  ∀ (s : State) (p q : Pins) (rest : List Pins), s.phase = .IDLE → s.running = true → accepts p s = true →
    decodeCommand s.nmax p.cmd = .ok .run → (∀ p' ∈ rest, p'.rst_n = true) → rest.length + 1 < s.n - s.count →
    ∃ t, clockEdges (p :: rest) s = .next t ∧ accepts q t = false ∧
      t = { stepBodies (rest.length + 1) s with phase := .RUN_LOOP, rsp_valid := false }

/-- R171: `cmd_ready`, and what is accepted at an edge. -/
def Obligations.ReadyExactlyWhenIdle : Prop :=
  ∀ (p : Pins) (s : State), (cmdReady p s = true ↔ p.rst_n = true ∧ s.phase = .IDLE) ∧
    (accepts p s = true ↔ p.cmd_valid = true ∧ cmdReady p s = true) ∧
    (p.rst_n = true → p.cmd_valid = true → accepts p s = false → clockEdge p s = clockEdge { p with cmd_valid := false } s)

/-- 70_reset_and_hazards.md section 4 (R174) and 30_encoding.md section 5 (R79): the response register at each edge: it shows
the status of the command that completes at that edge, and falls at the next edge at which none completes; the response
port shows it while `rsp_valid = 1`. -/
def Obligations.ResponseLastsOneCycle : Prop :=
  ∀ (p : Pins) (s : State), p.rst_n = true → ∃ t, clockEdge p s = .next t ∧
    (s.phase = .IDLE → p.cmd_valid = false → t = { s with rsp_valid := false }) ∧
    (t.phase = .RUN_LOOP → t.rsp_valid = false) ∧
    (accepts p s = true → t.phase = .IDLE →
      t.rsp_valid = true ∧ ∃ u, acceptCommand p.cmd s = .next u ∧ t.rsp_status = u.rsp_status) ∧
    (s.phase = .RUN_LOOP → t.phase = .IDLE → t.rsp_valid = true ∧ t.rsp_status = 0#3) ∧
    (t.rsp_valid = true → ∀ k, readRspStatus k t = t.rsp_status)
end

