-- ==== Sys2Proof/Laws/State.lean ====
section
/-! SUPPORT. One lemma per field per update of State, true by rfl, so that no later proof unfolds a record update. -/

namespace Sys2Proof.Machine

/-! ## respond -/

@[simp] theorem respond_nmax (st : Status) (s : State) : (respond st s).nmax = s.nmax := rfl
@[simp] theorem respond_A (st : Status) (s : State) : (respond st s).A = s.A := rfl
@[simp] theorem respond_Q (st : Status) (s : State) : (respond st s).Q = s.Q := rfl
@[simp] theorem respond_M (st : Status) (s : State) : (respond st s).M = s.M := rfl
@[simp] theorem respond_q1 (st : Status) (s : State) : (respond st s).q1 = s.q1 := rfl
@[simp] theorem respond_count (st : Status) (s : State) : (respond st s).count = s.count := rfl
@[simp] theorem respond_n (st : Status) (s : State) : (respond st s).n = s.n := rfl
@[simp] theorem respond_src_x (st : Status) (s : State) : (respond st s).src_x = s.src_x := rfl
@[simp] theorem respond_src_y (st : Status) (s : State) : (respond st s).src_y = s.src_y := rfl
@[simp] theorem respond_cfg_valid (st : Status) (s : State) : (respond st s).cfg_valid = s.cfg_valid := rfl
@[simp] theorem respond_log_len (st : Status) (s : State) : (respond st s).log_len = s.log_len := rfl
@[simp] theorem respond_Log (st : Status) (s : State) : (respond st s).Log = s.Log := rfl
@[simp] theorem respond_phase (st : Status) (s : State) : (respond st s).phase = s.phase := rfl
@[simp] theorem respond_rsp_valid (st : Status) (s : State) : (respond st s).rsp_valid = true := rfl
@[simp] theorem respond_rsp_status (st : Status) (s : State) : (respond st s).rsp_status = st.code := rfl
@[simp] theorem respond_host (st : Status) (s : State) : (respond st s).host = s.host := rfl
@[simp] theorem respond_draws (st : Status) (s : State) : (respond st s).draws = s.draws := rfl

/-! ## noResponse -/

@[simp] theorem noResponse_nmax (s : State) : (noResponse s).nmax = s.nmax := rfl
@[simp] theorem noResponse_A (s : State) : (noResponse s).A = s.A := rfl
@[simp] theorem noResponse_Q (s : State) : (noResponse s).Q = s.Q := rfl
@[simp] theorem noResponse_M (s : State) : (noResponse s).M = s.M := rfl
@[simp] theorem noResponse_q1 (s : State) : (noResponse s).q1 = s.q1 := rfl
@[simp] theorem noResponse_count (s : State) : (noResponse s).count = s.count := rfl
@[simp] theorem noResponse_n (s : State) : (noResponse s).n = s.n := rfl
@[simp] theorem noResponse_src_x (s : State) : (noResponse s).src_x = s.src_x := rfl
@[simp] theorem noResponse_src_y (s : State) : (noResponse s).src_y = s.src_y := rfl
@[simp] theorem noResponse_cfg_valid (s : State) : (noResponse s).cfg_valid = s.cfg_valid := rfl
@[simp] theorem noResponse_log_len (s : State) : (noResponse s).log_len = s.log_len := rfl
@[simp] theorem noResponse_Log (s : State) : (noResponse s).Log = s.Log := rfl
@[simp] theorem noResponse_phase (s : State) : (noResponse s).phase = s.phase := rfl
@[simp] theorem noResponse_rsp_valid (s : State) : (noResponse s).rsp_valid = false := rfl
@[simp] theorem noResponse_rsp_status (s : State) : (noResponse s).rsp_status = s.rsp_status := rfl
@[simp] theorem noResponse_host (s : State) : (noResponse s).host = s.host := rfl
@[simp] theorem noResponse_draws (s : State) : (noResponse s).draws = s.draws := rfl

/-! ## stepBody -/

@[simp] theorem stepBody_nmax (s : State) : (stepBody s).nmax = s.nmax := rfl
@[simp] theorem stepBody_A (s : State) : (stepBody s).A = (boothStep s.n s.M s.regs).A := rfl
@[simp] theorem stepBody_Q (s : State) : (stepBody s).Q = (boothStep s.n s.M s.regs).Q := rfl
@[simp] theorem stepBody_M (s : State) : (stepBody s).M = s.M := rfl
@[simp] theorem stepBody_q1 (s : State) : (stepBody s).q1 = (boothStep s.n s.M s.regs).q1 := rfl
@[simp] theorem stepBody_count (s : State) : (stepBody s).count = s.count + 1 := rfl
@[simp] theorem stepBody_n (s : State) : (stepBody s).n = s.n := rfl
@[simp] theorem stepBody_src_x (s : State) : (stepBody s).src_x = s.src_x := rfl
@[simp] theorem stepBody_src_y (s : State) : (stepBody s).src_y = s.src_y := rfl
@[simp] theorem stepBody_cfg_valid (s : State) : (stepBody s).cfg_valid = s.cfg_valid := rfl
@[simp] theorem stepBody_log_len (s : State) : (stepBody s).log_len = s.log_len + 1 := rfl
@[simp] theorem stepBody_Log (s : State) : (stepBody s).Log = Memory.write s.Log s.log_len s.snapshot := rfl
@[simp] theorem stepBody_phase (s : State) : (stepBody s).phase = s.phase := rfl
@[simp] theorem stepBody_rsp_valid (s : State) : (stepBody s).rsp_valid = s.rsp_valid := rfl
@[simp] theorem stepBody_rsp_status (s : State) : (stepBody s).rsp_status = s.rsp_status := rfl
@[simp] theorem stepBody_host (s : State) : (stepBody s).host = s.host := rfl
@[simp] theorem stepBody_draws (s : State) : (stepBody s).draws = s.draws := rfl

/-! ## hardwareReset -/

@[simp] theorem hardwareReset_nmax (s : State) : (hardwareReset s).nmax = s.nmax := rfl
@[simp] theorem hardwareReset_A (s : State) : (hardwareReset s).A = freeBits s.draws .A s.nmax := rfl
@[simp] theorem hardwareReset_Q (s : State) : (hardwareReset s).Q = freeBits s.draws .Q s.nmax := rfl
@[simp] theorem hardwareReset_M (s : State) : (hardwareReset s).M = freeBits s.draws .M s.nmax := rfl
@[simp] theorem hardwareReset_q1 (s : State) : (hardwareReset s).q1 = (freeBits s.draws .q1 1).testBit 0 := rfl
@[simp] theorem hardwareReset_count (s : State) : (hardwareReset s).count = 0 := rfl
@[simp] theorem hardwareReset_n (s : State) : (hardwareReset s).n = freeBits s.draws .n bw := rfl
@[simp] theorem hardwareReset_src_x (s : State) : (hardwareReset s).src_x = freeBits s.draws .src_x s.nmax := rfl
@[simp] theorem hardwareReset_src_y (s : State) : (hardwareReset s).src_y = freeBits s.draws .src_y s.nmax := rfl
@[simp] theorem hardwareReset_cfg_valid (s : State) : (hardwareReset s).cfg_valid = false := rfl
@[simp] theorem hardwareReset_log_len (s : State) : (hardwareReset s).log_len = 0 := rfl
@[simp] theorem hardwareReset_Log (s : State) : (hardwareReset s).Log = [] := rfl
@[simp] theorem hardwareReset_phase (s : State) : (hardwareReset s).phase = .IDLE := rfl
@[simp] theorem hardwareReset_rsp_valid (s : State) : (hardwareReset s).rsp_valid = false := rfl
@[simp] theorem hardwareReset_rsp_status (s : State) : (hardwareReset s).rsp_status = BitVec.ofNat 3 (freeBits s.draws .rsp_status 3) := rfl
@[simp] theorem hardwareReset_host (s : State) : (hardwareReset s).host = s.host := rfl
@[simp] theorem hardwareReset_draws (s : State) : (hardwareReset s).draws = s.draws + 1 := rfl

/-! ## loadConfiguration -/

@[simp] theorem loadConfiguration_nmax (x y : Option Nat) (bits : Option BitsBus) (s : State) : (loadConfiguration x y bits s).nmax = s.nmax := rfl
@[simp] theorem loadConfiguration_A (x y : Option Nat) (bits : Option BitsBus) (s : State) : (loadConfiguration x y bits s).A = 0 := rfl
@[simp] theorem loadConfiguration_Q (x y : Option Nat) (bits : Option BitsBus) (s : State) : (loadConfiguration x y bits s).Q = toTwosComplement (resolveSource s.nmax y s.src_y : Int) (resolveWidth bits s.n) := rfl
@[simp] theorem loadConfiguration_M (x y : Option Nat) (bits : Option BitsBus) (s : State) : (loadConfiguration x y bits s).M = toTwosComplement (resolveSource s.nmax x s.src_x : Int) (resolveWidth bits s.n) := rfl
@[simp] theorem loadConfiguration_q1 (x y : Option Nat) (bits : Option BitsBus) (s : State) : (loadConfiguration x y bits s).q1 = false := rfl
@[simp] theorem loadConfiguration_count (x y : Option Nat) (bits : Option BitsBus) (s : State) : (loadConfiguration x y bits s).count = 0 := rfl
@[simp] theorem loadConfiguration_n (x y : Option Nat) (bits : Option BitsBus) (s : State) : (loadConfiguration x y bits s).n = resolveWidth bits s.n := rfl
@[simp] theorem loadConfiguration_src_x (x y : Option Nat) (bits : Option BitsBus) (s : State) : (loadConfiguration x y bits s).src_x = resolveSource s.nmax x s.src_x := rfl
@[simp] theorem loadConfiguration_src_y (x y : Option Nat) (bits : Option BitsBus) (s : State) : (loadConfiguration x y bits s).src_y = resolveSource s.nmax y s.src_y := rfl
@[simp] theorem loadConfiguration_cfg_valid (x y : Option Nat) (bits : Option BitsBus) (s : State) : (loadConfiguration x y bits s).cfg_valid = true := rfl
@[simp] theorem loadConfiguration_log_len (x y : Option Nat) (bits : Option BitsBus) (s : State) : (loadConfiguration x y bits s).log_len = 0 := rfl
@[simp] theorem loadConfiguration_Log (x y : Option Nat) (bits : Option BitsBus) (s : State) : (loadConfiguration x y bits s).Log = s.Log := rfl
@[simp] theorem loadConfiguration_phase (x y : Option Nat) (bits : Option BitsBus) (s : State) : (loadConfiguration x y bits s).phase = s.phase := rfl
@[simp] theorem loadConfiguration_rsp_valid (x y : Option Nat) (bits : Option BitsBus) (s : State) : (loadConfiguration x y bits s).rsp_valid = s.rsp_valid := rfl
@[simp] theorem loadConfiguration_rsp_status (x y : Option Nat) (bits : Option BitsBus) (s : State) : (loadConfiguration x y bits s).rsp_status = s.rsp_status := rfl
@[simp] theorem loadConfiguration_host (x y : Option Nat) (bits : Option BitsBus) (s : State) : (loadConfiguration x y bits s).host = s.host := rfl
@[simp] theorem loadConfiguration_draws (x y : Option Nat) (bits : Option BitsBus) (s : State) : (loadConfiguration x y bits s).draws = s.draws := rfl

/-! ## presentCommand -/

@[simp] theorem presentCommand_nmax (c : Command) (s : State) : (presentCommand c s).nmax = s.nmax := rfl
@[simp] theorem presentCommand_A (c : Command) (s : State) : (presentCommand c s).A = s.A := rfl
@[simp] theorem presentCommand_Q (c : Command) (s : State) : (presentCommand c s).Q = s.Q := rfl
@[simp] theorem presentCommand_M (c : Command) (s : State) : (presentCommand c s).M = s.M := rfl
@[simp] theorem presentCommand_q1 (c : Command) (s : State) : (presentCommand c s).q1 = s.q1 := rfl
@[simp] theorem presentCommand_count (c : Command) (s : State) : (presentCommand c s).count = s.count := rfl
@[simp] theorem presentCommand_n (c : Command) (s : State) : (presentCommand c s).n = s.n := rfl
@[simp] theorem presentCommand_src_x (c : Command) (s : State) : (presentCommand c s).src_x = s.src_x := rfl
@[simp] theorem presentCommand_src_y (c : Command) (s : State) : (presentCommand c s).src_y = s.src_y := rfl
@[simp] theorem presentCommand_cfg_valid (c : Command) (s : State) : (presentCommand c s).cfg_valid = s.cfg_valid := rfl
@[simp] theorem presentCommand_log_len (c : Command) (s : State) : (presentCommand c s).log_len = s.log_len := rfl
@[simp] theorem presentCommand_Log (c : Command) (s : State) : (presentCommand c s).Log = s.Log := rfl
@[simp] theorem presentCommand_phase (c : Command) (s : State) : (presentCommand c s).phase = .IDLE := rfl
@[simp] theorem presentCommand_rsp_valid (c : Command) (s : State) : (presentCommand c s).rsp_valid = s.rsp_valid := rfl
@[simp] theorem presentCommand_rsp_status (c : Command) (s : State) : (presentCommand c s).rsp_status = s.rsp_status := rfl
@[simp] theorem presentCommand_host (c : Command) (s : State) : (presentCommand c s).host = .command c :: s.host := rfl
@[simp] theorem presentCommand_draws (c : Command) (s : State) : (presentCommand c s).draws = s.draws := rfl

/-! ## The double register -/

@[simp] theorem regs_A (s : State) : s.regs.A = s.A := rfl
@[simp] theorem regs_Q (s : State) : s.regs.Q = s.Q := rfl
@[simp] theorem regs_q1 (s : State) : s.regs.q1 = s.q1 := rfl
@[simp] theorem respond_regs (st : Status) (s : State) : (respond st s).regs = s.regs := rfl
@[simp] theorem noResponse_regs (s : State) : (noResponse s).regs = s.regs := rfl
@[simp] theorem stepBody_regs (s : State) : (stepBody s).regs = boothStep s.n s.M s.regs := rfl

/-! ## The snapshot an executed step appends -/

@[simp] theorem snapshot_idx (s : State) : s.snapshot.idx = s.count + 1 := rfl
@[simp] theorem snapshot_act (s : State) : s.snapshot.act = boothDecide (s.Q.testBit 0) s.q1 := rfl
@[simp] theorem snapshot_a (s : State) : s.snapshot.a = (boothStep s.n s.M s.regs).A := rfl
@[simp] theorem snapshot_q (s : State) : s.snapshot.q = (boothStep s.n s.M s.regs).Q := rfl
@[simp] theorem snapshot_q1 (s : State) : s.snapshot.q1 = (boothStep s.n s.M s.regs).q1 := rfl
@[simp] theorem snapshot_m (s : State) : s.snapshot.m = s.M := rfl

end Sys2Proof.Machine
end

