-- ==== Sys2Proof/Laws/Datapath.lean ====
section
/-! SUPPORT. The datapath in plain arithmetic: the spec lemmas that later proofs cite instead of unfolding a primitive. -/

namespace Sys2Proof.Machine

/-- `2^n` and `2^(n-1)` as two numbers, so that `omega` sees only those. -/
theorem pow_half (n : Nat) (hn : 1 ≤ n) : ∃ H, 1 ≤ H ∧ 2 ^ (n - 1) = H ∧ 2 ^ n = 2 * H :=
  ⟨2 ^ (n - 1), Nat.one_le_two_pow, rfl, by rw [← Nat.pow_succ']; congr 1; omega⟩

theorem toTwosComplement_lt (v : Int) (w : Nat) : toTwosComplement v w < 2 ^ w := by
  have hp : (0 : Int) < ((2 ^ w : Nat) : Int) := by positivity
  have h := Int.emod_lt_of_pos v hp
  have h0 := Int.emod_nonneg v hp.ne'
  unfold toTwosComplement
  generalize 2 ^ w = W at *
  omega

theorem toTwosComplement_cast (v : Int) (w : Nat) : (toTwosComplement v w : Int) = v % ((2 ^ w : Nat) : Int) := by
  have hp : (0 : Int) < ((2 ^ w : Nat) : Int) := by positivity
  exact Int.toNat_of_nonneg (Int.emod_nonneg v hp.ne')

/-- Of a pattern: the low `w` bits. -/
theorem toTwosComplement_natCast (p w : Nat) : toTwosComplement (p : Int) w = p % 2 ^ w := by
  have h := toTwosComplement_cast (p : Int) w
  exact_mod_cast h

/-- The top bit of a `w`-bit pattern is set exactly when the pattern is in the upper half. -/
theorem testBit_top (p w : Nat) (hw : 1 ≤ w) (hp : p < 2 ^ w) : p.testBit (w - 1) = decide (2 ^ (w - 1) ≤ p) := by
  obtain ⟨H, h1, hH, h2⟩ := pow_half w hw
  rw [Nat.testBit_eq_decide_div_mod_eq, hH]
  rw [h2] at hp
  congr 1
  rcases Nat.lt_or_ge p H with h | h
  · simp [Nat.div_eq_of_lt h, Nat.not_le.2 h]
  · have : p / H = 1 := Nat.div_eq_of_lt_le (by omega) (by omega)
    simp [this, h]

theorem fromTwosComplement_eq (p w : Nat) (hw : 1 ≤ w) (hp : p < 2 ^ w) :
    fromTwosComplement p w = if 2 ^ (w - 1) ≤ p then (p : Int) - ((2 ^ w : Nat) : Int) else (p : Int) := by
  unfold fromTwosComplement
  rw [testBit_top p w hw hp]
  simp

theorem testBit_zero_toNat (p : Nat) : (p.testBit 0).toNat = p % 2 := by
  rw [Nat.testBit_zero]
  rcases Nat.mod_two_eq_zero_or_one p with h | h <;> simp [h]

/-- An `or` with a single top bit above the other operand is an addition. -/
theorem or_top (p k : Nat) (b : Bool) (hp : p < 2 ^ k) : p ||| (b.toNat * 2 ^ k) = p + b.toNat * 2 ^ k := by
  rw [Nat.lor_comm, ← Nat.shiftLeft_eq, ← Nat.shiftLeft_add_eq_or_of_lt hp, Nat.add_comm]

theorem half_lt (p n : Nat) (hn : 1 ≤ n) (hp : p < 2 ^ n) : p / 2 < 2 ^ (n - 1) := by
  obtain ⟨H, h1, hH, h2⟩ := pow_half n hn
  rw [h2] at hp; rw [hH]; omega

/-- The coupled shift in plain arithmetic. -/
theorem shift_arith (r : Regs) (n : Nat) (hn : 1 ≤ n) (hA : r.A < 2 ^ n) (hQ : r.Q < 2 ^ n) :
    shiftRightArithmeticAQ r n =
      { A := r.A / 2 + (if 2 ^ (n - 1) ≤ r.A then 2 ^ (n - 1) else 0)
        Q := r.Q / 2 + r.A % 2 * 2 ^ (n - 1)
        q1 := r.Q.testBit 0 } := by
  unfold shiftRightArithmeticAQ
  rw [Nat.shiftRight_one, Nat.shiftRight_one, or_top _ _ _ (half_lt _ n hn hQ), or_top _ _ _ (half_lt _ n hn hA),
    testBit_zero_toNat, testBit_top _ _ hn hA]
  congr 2
  split <;> simp_all

theorem shift_A_lt (r : Regs) (n : Nat) (hn : 1 ≤ n) (hA : r.A < 2 ^ n) (hQ : r.Q < 2 ^ n) :
    (shiftRightArithmeticAQ r n).A < 2 ^ n := by
  rw [shift_arith r n hn hA hQ]
  obtain ⟨H, h1, hH, h2⟩ := pow_half n hn
  rw [h2] at hA ⊢
  dsimp only
  rw [hH]
  split <;> omega

theorem shift_Q_lt (r : Regs) (n : Nat) (hn : 1 ≤ n) (hA : r.A < 2 ^ n) (hQ : r.Q < 2 ^ n) :
    (shiftRightArithmeticAQ r n).Q < 2 ^ n := by
  rw [shift_arith r n hn hA hQ]
  obtain ⟨H, h1, hH, h2⟩ := pow_half n hn
  rw [h2] at hQ ⊢
  dsimp only
  rw [hH]
  rcases Nat.mod_two_eq_zero_or_one r.A with h | h <;> rw [h] <;> omega

theorem aluResult_lt (act : Action) (A M n : Nat) (hA : A < 2 ^ n) : aluResult act A M n < 2 ^ n := by
  have hpos : 0 < 2 ^ n := by positivity
  cases act
  · exact hA
  · exact Nat.mod_lt _ hpos
  · exact Nat.mod_lt _ hpos

/-- One iteration keeps the registers in n bits. -/
theorem boothStep_fits (n M : Nat) (r : Regs) (hn : 1 ≤ n) (hA : r.A < 2 ^ n) (hQ : r.Q < 2 ^ n) :
    (boothStep n M r).A < 2 ^ n ∧ (boothStep n M r).Q < 2 ^ n :=
  ⟨shift_A_lt _ n hn (aluResult_lt _ _ _ _ hA) hQ, shift_Q_lt _ n hn (aluResult_lt _ _ _ _ hA) hQ⟩

/-- Iterations add up. -/
theorem boothIter_add (n M j k : Nat) (r : Regs) : boothIter n M k (boothIter n M j r) = boothIter n M (j + k) r := by
  induction k with
  | zero => rfl
  | succ k ih =>
    have h : boothIter n M (j + (k + 1)) r = boothStep n M (boothIter n M (j + k) r) := rfl
    rw [h, ← ih]
    rfl

theorem boothIter_step (n M k : Nat) (r : Regs) : boothIter n M k (boothStep n M r) = boothIter n M (k + 1) r := by
  have h := boothIter_add n M 1 k r
  rw [Nat.add_comm] at h
  exact h

end Sys2Proof.Machine
end

