-- ==== Sys2Proof/Laws/Decode.lean ====
section
/-! SUPPORT. The decoder and the opcode table: no two rows overlap, the fields of a packed word, and what a decoded
command can be. -/

namespace Sys2Proof

/-- No command word belongs to two rows, so decoding is unambiguous. -/
theorem commandRows_disjoint : ∀ w : CmdWord,
    commandRows.Pairwise (fun r r' => ¬ (r.matches w.toNat = true ∧ r'.matches w.toNat = true)) := by decide

/-- No action code belongs to two rows. -/
theorem actionRows_disjoint : ∀ c : ActionCode,
    actionRows.Pairwise (fun r r' => ¬ (r.matches c.toNat = true ∧ r'.matches c.toNat = true)) := by decide

@[simp] theorem pack_rsv (sel : BitVec 3) (op : BitVec 4) : (CmdWord.pack sel op).rsv = false := by
  revert sel op; decide

@[simp] theorem pack_sel (sel : BitVec 3) (op : BitVec 4) : (CmdWord.pack sel op).sel = sel := by
  revert sel op; decide

@[simp] theorem pack_op (sel : BitVec 3) (op : BitVec 4) : (CmdWord.pack sel op).op = op := by
  revert sel op; decide

/-- A bus value that fits its bus is carried unchanged (30_encoding.md R72 "unchanged"). -/
theorem busValue_of_fits (nmax v : Nat) (h : fitsBus nmax v = true) : busValue nmax v = v :=
  Nat.mod_eq_of_lt (of_decide_eq_true h)

theorem busValue_fits (nmax v : Nat) : fitsBus nmax (busValue nmax v) = true :=
  decide_eq_true (Nat.mod_lt _ (Nat.two_pow_pos _))

/-- What the command decoder can answer, and of which word. -/
theorem decodeCommand_cases (nmax : Nat) (c : Command) (i : Instr) (h : decodeCommand nmax c = .ok i) :
    c.cmd_word.rsv = false ∧
      ((c.cmd_word.op = opReset ∧
          i = .reset (selected (c.cmd_word.sel.getLsbD 0) (busValue nmax c.cmd_x))
            (selected (c.cmd_word.sel.getLsbD 1) (busValue nmax c.cmd_y)) (selected (c.cmd_word.sel.getLsbD 2) c.cmd_bits)) ∨
        (c.cmd_word.op = opStep ∧ c.cmd_word.sel = 0#3 ∧ i = .step) ∨
        (c.cmd_word.op = opRun ∧ c.cmd_word.sel = 0#3 ∧ i = .run)) := by
  simp only [decodeCommand] at h
  split at h
  · cases h
  · next hr =>
    refine ⟨by simpa using hr, ?_⟩
    split at h
    · next ho => exact .inl ⟨ho, by cases h; rfl⟩
    · split at h
      · next ho =>
        split at h
        · next hs => exact .inr (.inl ⟨ho, hs, by cases h; rfl⟩)
        · cases h
      · split at h
        · next ho =>
          split at h
          · next hs => exact .inr (.inr ⟨ho, hs, by cases h; rfl⟩)
          · cases h
        · cases h

/-- The command port decodes to commands only, never to an action code. -/
theorem decodeCommand_isCommand (nmax : Nat) (c : Command) (i : Instr) (h : decodeCommand nmax c = .ok i) :
    Machine.isCommand i = true := by
  obtain ⟨-, ⟨-, rfl⟩ | ⟨-, -, rfl⟩ | ⟨-, -, rfl⟩⟩ := decodeCommand_cases nmax c i h <;> rfl

end Sys2Proof
end

