-- ==== Sys2Proof/Laws/Memory.lean ====
section
/-! SUPPORT. The step-log memory: read after write, and that every write keeps the canonical form. -/

namespace Sys2Proof.Machine

theorem Memory.read_write_same (m : Memory) (i : Nat) (e : LogEntry) : Memory.read (Memory.write m i e) i = some e := by
  induction m with
  | nil => simp [Memory.write, Memory.read]
  | cons c rest ih =>
    obtain ⟨j, d⟩ := c
    simp only [Memory.write]
    split
    · simp [Memory.read]
    · split
      · simp [Memory.read]
      · next h => simp [Memory.read, ih, Ne.symm h]

theorem Memory.read_write_other (m : Memory) (i k : Nat) (e : LogEntry) (h : k ≠ i) :
    Memory.read (Memory.write m i e) k = Memory.read m k := by
  induction m with
  | nil => simp [Memory.write, Memory.read, Ne.symm h]
  | cons c rest ih =>
    obtain ⟨j, d⟩ := c
    simp only [Memory.write]
    split
    · simp [Memory.read, Ne.symm h]
    · split
      · next hij => subst hij; simp [Memory.read, Ne.symm h]
      · simp [Memory.read, ih]

/-- One law for both: what any index reads after a write. -/
theorem Memory.read_write (m : Memory) (i k : Nat) (e : LogEntry) :
    Memory.read (Memory.write m i e) k = if k = i then some e else Memory.read m k := by
  by_cases h : k = i
  · subst h; simp [Memory.read_write_same]
  · simp [h, Memory.read_write_other]

theorem Memory.risesAbove_write (m : Memory) (b i : Nat) (e : LogEntry) (hb : b ≤ i)
    (h : Memory.risesAbove b m = true) : Memory.risesAbove b (Memory.write m i e) = true := by
  induction m generalizing b with
  | nil => simp [Memory.write, Memory.risesAbove, hb]
  | cons c rest ih =>
    obtain ⟨j, d⟩ := c
    simp only [Memory.risesAbove, Bool.and_eq_true, decide_eq_true_eq] at h
    simp only [Memory.write]
    split
    · simp only [Memory.risesAbove, Bool.and_eq_true, decide_eq_true_eq]; exact ⟨hb, by omega, h.2⟩
    · split
      · next hij => subst hij; simp only [Memory.risesAbove, Bool.and_eq_true, decide_eq_true_eq]; exact h
      · simp only [Memory.risesAbove, Bool.and_eq_true, decide_eq_true_eq]; exact ⟨h.1, ih _ (by omega) h.2⟩

theorem Memory.wf_write (m : Memory) (i : Nat) (e : LogEntry) (h : Memory.wf m = true) :
    Memory.wf (Memory.write m i e) = true := Memory.risesAbove_write m 0 i e (Nat.zero_le i) h

@[simp] theorem Memory.wf_nil : Memory.wf [] = true := rfl

/-- The cells after a write are the written one and old ones. -/
theorem Memory.mem_write (m : Memory) (i : Nat) (e : LogEntry) (c : Nat × LogEntry)
    (h : c ∈ Memory.write m i e) : c = (i, e) ∨ c ∈ m := by
  induction m with
  | nil => simpa [Memory.write] using h
  | cons d rest ih =>
    obtain ⟨j, d⟩ := d
    simp only [Memory.write] at h
    split at h
    · simpa using h
    · split at h
      · rcases List.mem_cons.1 h with h | h
        · exact .inl h
        · exact .inr (List.mem_cons_of_mem _ h)
      · rcases List.mem_cons.1 h with h | h
        · exact .inr (h ▸ List.mem_cons_self)
        · rcases ih h with h | h
          · exact .inl h
          · exact .inr (List.mem_cons_of_mem _ h)

/-- The memory of the state after reset is in canonical form. -/
theorem reset_log_wf : Memory.wf State.reset.Log = true := rfl

/-- Every memory operation of the machine keeps the canonical form: a step body. -/
theorem stepBody_log_wf (s : State) (h : Memory.wf s.Log = true) : Memory.wf (stepBody s).Log = true :=
  Memory.wf_write _ _ _ h

end Sys2Proof.Machine
end

