-- ==== Sys2Proof/Laws/Ops.lean ====
section
/-! SUPPORT. The shared operations: what any number of step bodies does, and that every operation keeps the invariant. -/

namespace Sys2Proof.Machine

/-! ## Step bodies: the frame -/

@[simp] theorem stepBodies_zero (s : State) : stepBodies 0 s = s := rfl
theorem stepBodies_succ (k : Nat) (s : State) : stepBodies (k + 1) s = stepBodies k (stepBody s) := rfl

@[simp] theorem stepBodies_nmax (k : Nat) (s : State) : (stepBodies k s).nmax = s.nmax := by
  induction k generalizing s with | zero => rfl | succ k ih => simp [stepBodies_succ, ih]
@[simp] theorem stepBodies_M (k : Nat) (s : State) : (stepBodies k s).M = s.M := by
  induction k generalizing s with | zero => rfl | succ k ih => simp [stepBodies_succ, ih]
@[simp] theorem stepBodies_n (k : Nat) (s : State) : (stepBodies k s).n = s.n := by
  induction k generalizing s with | zero => rfl | succ k ih => simp [stepBodies_succ, ih]
@[simp] theorem stepBodies_src_x (k : Nat) (s : State) : (stepBodies k s).src_x = s.src_x := by
  induction k generalizing s with | zero => rfl | succ k ih => simp [stepBodies_succ, ih]
@[simp] theorem stepBodies_src_y (k : Nat) (s : State) : (stepBodies k s).src_y = s.src_y := by
  induction k generalizing s with | zero => rfl | succ k ih => simp [stepBodies_succ, ih]
@[simp] theorem stepBodies_cfg_valid (k : Nat) (s : State) : (stepBodies k s).cfg_valid = s.cfg_valid := by
  induction k generalizing s with | zero => rfl | succ k ih => simp [stepBodies_succ, ih]
@[simp] theorem stepBodies_phase (k : Nat) (s : State) : (stepBodies k s).phase = s.phase := by
  induction k generalizing s with | zero => rfl | succ k ih => simp [stepBodies_succ, ih]
@[simp] theorem stepBodies_rsp_valid (k : Nat) (s : State) : (stepBodies k s).rsp_valid = s.rsp_valid := by
  induction k generalizing s with | zero => rfl | succ k ih => simp [stepBodies_succ, ih]
@[simp] theorem stepBodies_rsp_status (k : Nat) (s : State) : (stepBodies k s).rsp_status = s.rsp_status := by
  induction k generalizing s with | zero => rfl | succ k ih => simp [stepBodies_succ, ih]
@[simp] theorem stepBodies_host (k : Nat) (s : State) : (stepBodies k s).host = s.host := by
  induction k generalizing s with | zero => rfl | succ k ih => simp [stepBodies_succ, ih]
@[simp] theorem stepBodies_draws (k : Nat) (s : State) : (stepBodies k s).draws = s.draws := by
  induction k generalizing s with | zero => rfl | succ k ih => simp [stepBodies_succ, ih]

/-! ## Step bodies: what they write -/

@[simp] theorem stepBodies_count (k : Nat) (s : State) : (stepBodies k s).count = s.count + k := by
  induction k generalizing s with | zero => rfl | succ k ih => simp [stepBodies_succ, ih]; omega
@[simp] theorem stepBodies_log_len (k : Nat) (s : State) : (stepBodies k s).log_len = s.log_len + k := by
  induction k generalizing s with | zero => rfl | succ k ih => simp [stepBodies_succ, ih]; omega
@[simp] theorem stepBodies_regs (k : Nat) (s : State) : (stepBodies k s).regs = boothIter s.n s.M k s.regs := by
  induction k generalizing s with | zero => rfl | succ k ih => simp [stepBodies_succ, ih, boothIter_step]
theorem stepBodies_A (k : Nat) (s : State) : (stepBodies k s).A = (boothIter s.n s.M k s.regs).A := by
  rw [← stepBodies_regs]; rfl
theorem stepBodies_Q (k : Nat) (s : State) : (stepBodies k s).Q = (boothIter s.n s.M k s.regs).Q := by
  rw [← stepBodies_regs]; rfl
theorem stepBodies_q1 (k : Nat) (s : State) : (stepBodies k s).q1 = (boothIter s.n s.M k s.regs).q1 := by
  rw [← stepBodies_regs]; rfl

theorem snapshot_eq (s : State) : s.snapshot = traceEntry s.n s.M s.count s.regs := rfl

theorem stepBodies_add (j k : Nat) (s : State) : stepBodies (j + k) s = stepBodies k (stepBodies j s) := by
  induction j generalizing s with
  | zero => rw [Nat.zero_add]; rfl
  | succ j ih => rw [show j + 1 + k = (j + k) + 1 by omega, stepBodies_succ, ih, stepBodies_succ]

/-- The last body of several. -/
theorem stepBodies_last (k : Nat) (s : State) : stepBodies (k + 1) s = stepBody (stepBodies k s) := by
  rw [stepBodies_add]; rfl

/-- What the log reads after `k` bodies: the entry of each at its own index, and every other index as before. -/
theorem stepBodies_read (k : Nat) (s : State) (i : Nat) :
    Memory.read (stepBodies k s).Log i =
      if s.log_len ≤ i ∧ i < s.log_len + k then
        some (traceEntry s.n s.M (s.count + (i - s.log_len)) (boothIter s.n s.M (i - s.log_len) s.regs))
      else Memory.read s.Log i := by
  induction k with
  | zero =>
    rw [if_neg (by omega)]; rfl
  | succ k ih =>
    rw [stepBodies_last, stepBody_Log, Memory.read_write, snapshot_eq]
    simp only [stepBodies_log_len, stepBodies_n, stepBodies_M, stepBodies_count, stepBodies_regs]
    by_cases h : i = s.log_len + k
    · subst h
      rw [if_pos rfl, if_pos (by omega)]
      simp
    · rw [if_neg h, ih]
      by_cases h2 : s.log_len ≤ i ∧ i < s.log_len + k
      · rw [if_pos h2, if_pos (by omega)]
      · rw [if_neg h2, if_neg (by omega)]

theorem stepBodies_log_wf (k : Nat) (s : State) (h : Memory.wf s.Log = true) : Memory.wf (stepBodies k s).Log = true := by
  induction k generalizing s with
  | zero => exact h
  | succ k ih => exact ih _ (stepBody_log_wf s h)

/-! ## The while loop of RUN -/

/-- With a step to do: one body, then the rest. -/
theorem runLoop_running (s : State) (h : s.count < s.n) : runLoop s = runLoop (stepBody s) := by
  unfold runLoop
  rw [show s.n - s.count = (s.n - (s.count + 1)) + 1 by omega, stepBodies_succ]
  rfl

/-- Without one: nothing. -/
theorem runLoop_finished (s : State) (h : ¬ s.count < s.n) : runLoop s = s := by
  unfold runLoop
  rw [show s.n - s.count = 0 by omega]
  rfl

/-! ## The checks in plain arithmetic -/

theorem bitsValid_iff (nmax : Nat) (b : BitsBus) : bitsValid nmax b = true ↔ 4 ≤ b.toNat ∧ b.toNat ≤ nmax := by
  show (decide (4 ≤ b.toNat) && decide (b.toNat ≤ nmax)) = true ↔ _
  rw [Bool.and_eq_true, decide_eq_true_eq, decide_eq_true_eq]

theorem suppliedBitsValid_iff (nmax : Nat) (bits : Option BitsBus) :
    suppliedBitsValid nmax bits = true ↔ ∀ b, bits = some b → 4 ≤ b.toNat ∧ b.toNat ≤ nmax := by
  cases bits with
  | none => simp [suppliedBitsValid]
  | some b => simp only [suppliedBitsValid, bitsValid_iff, Option.some.injEq, forall_eq']

theorem nmaxLegal_iff (nmax : Nat) : nmaxLegal nmax = true ↔ 4 ≤ nmax ∧ nmax ≤ 65535 := by
  show (decide (4 ≤ nmax) && decide (nmax ≤ 65535)) = true ↔ _
  rw [Bool.and_eq_true, decide_eq_true_eq, decide_eq_true_eq]

theorem allSupplied_iff (x y : Option Nat) (bits : Option BitsBus) :
    allSupplied x y bits = true ↔ x.isSome = true ∧ y.isSome = true ∧ bits.isSome = true := by
  simp only [allSupplied, Bool.and_eq_true, and_assoc]

theorem running_iff (s : State) : s.running = true ↔ s.cfg_valid = true ∧ s.count < s.n := by
  simp only [State.running, Bool.and_eq_true, decide_eq_true_eq]

theorem done_iff (s : State) : s.done = true ↔ s.cfg_valid = true ∧ s.count = s.n := by
  simp only [State.done, Bool.and_eq_true, decide_eq_true_eq]

/-! ## Widths -/

theorem freeBits_lt (k : Nat) (r : Config.FreeReg) (w : Nat) : freeBits k r w < 2 ^ w := Nat.mod_lt _ (by positivity)

theorem status_code_le (st : Status) : st.code.toNat ≤ 4 := by cases st <;> decide

theorem lt_two_pow_mono {p n m : Nat} (hp : p < 2 ^ n) (h : n ≤ m) : p < 2 ^ m :=
  Nat.lt_of_lt_of_le hp (Nat.pow_le_pow_right (by decide) h)

/-- CW bits hold every count up to NMAX (00_scope.md R9). -/
theorem lt_two_pow_cw (nmax k : Nat) (h : k ≤ nmax) : k < 2 ^ cw nmax := Nat.lt_of_le_of_lt h Nat.lt_log2_self

/-- Every index of the log, and NMAX itself, fits the CW address wires. -/
theorem logAddress_of_le (nmax a : Nat) (h : a ≤ nmax) : logAddress nmax a = a := Nat.mod_eq_of_lt (lt_two_pow_cw nmax a h)

theorem logRvalid_iff (a : Nat) (s : State) : logRvalid a s = true ↔ s.cfg_valid = true ∧ logAddress s.nmax a < s.log_len := by
  simp [logRvalid]

/-- A valid address whose entry was written gives that entry. -/
theorem readLog_next (a : Nat) (s : State) (e : LogEntry) (hv : logRvalid a s = true)
    (he : Memory.read s.Log (logAddress s.nmax a) = some e) : readLog a s = .next (logView e s) := by
  simp [readLog, hv, he]

theorem LogEntry.fits_iff (nmax : Nat) (e : LogEntry) :
    e.fits nmax = true ↔ ((e.idx < 2 ^ cw nmax ∧ e.a < 2 ^ nmax) ∧ e.q < 2 ^ nmax) ∧ e.m < 2 ^ nmax := by
  simp only [LogEntry.fits, Bool.and_eq_true, decide_eq_true_eq]

/-! ## The invariant, operation by operation -/

theorem StateInv_respond (st : Status) (s : State) (h : StateInv s) : StateInv (respond st s) :=
  { nmax_legal := h.nmax_legal, physical := h.physical, configured := h.configured, unconfigured := h.unconfigured
    log_len_eq := h.log_len_eq, busy_running := h.busy_running, log_wf := h.log_wf, log_bounded := h.log_bounded
    log_readable := h.log_readable, status_produced := fun _ => status_code_le st }

theorem StateInv_noResponse (s : State) (h : StateInv s) : StateInv (noResponse s) :=
  { nmax_legal := h.nmax_legal, physical := h.physical, configured := h.configured, unconfigured := h.unconfigured
    log_len_eq := h.log_len_eq, busy_running := h.busy_running, log_wf := h.log_wf, log_bounded := h.log_bounded
    log_readable := h.log_readable, status_produced := fun hv => nomatch hv }

theorem StateInv_host (s : State) (l : List HostInput) (h : StateInv s) : StateInv { s with host := l } :=
  { nmax_legal := h.nmax_legal, physical := h.physical, configured := h.configured, unconfigured := h.unconfigured
    log_len_eq := h.log_len_eq, busy_running := h.busy_running, log_wf := h.log_wf, log_bounded := h.log_bounded
    log_readable := h.log_readable, status_produced := h.status_produced }

/-- The hardware reset gives a state of the invariant whatever the free values are. -/
theorem StateInv_hardwareReset (s : State) (h : StateInv s) : StateInv (hardwareReset s) :=
  { nmax_legal := h.nmax_legal
    physical := ⟨freeBits_lt _ _ _, freeBits_lt _ _ _, freeBits_lt _ _ _, freeBits_lt _ _ _, freeBits_lt _ _ _, freeBits_lt _ _ _⟩
    configured := fun hc => nomatch hc
    unconfigured := fun _ => ⟨rfl, rfl⟩
    log_len_eq := rfl
    busy_running := fun hp => nomatch hp
    log_wf := rfl
    log_bounded := fun _ hc => nomatch hc
    log_readable := fun _ hi => absurd hi (Nat.not_lt_zero _)
    status_produced := fun hv => nomatch hv }

/-- A step body of a RUNNING state, in any phase that fits the new count. -/
theorem StateInv_stepBody (s : State) (ph : Phase) (h : StateInv s) (hc : s.cfg_valid = true) (hlt : s.count < s.n)
    (hph : ph = .RUN_LOOP → s.count + 1 < s.n) : StateInv { stepBody s with phase := ph } := by
  obtain ⟨h4, hnm, hA, hQ, hM, -⟩ := h.configured hc
  have hmin : Config.minWidth = 4 := rfl
  obtain ⟨hA', hQ'⟩ := boothStep_fits s.n s.M s.regs (by omega) hA hQ
  refine
    { nmax_legal := h.nmax_legal
      physical := ⟨lt_two_pow_mono hA' hnm, lt_two_pow_mono hQ' hnm, h.physical.2.2⟩
      configured := fun _ => ⟨h4, hnm, hA', hQ', hM, hlt⟩
      unconfigured := fun hf => absurd hc (by rw [show s.cfg_valid = false from hf]; decide)
      log_len_eq := congrArg (· + 1) h.log_len_eq
      busy_running := hph
      log_wf := stepBody_log_wf s h.log_wf
      log_bounded := ?_
      log_readable := ?_
      status_produced := h.status_produced }
  · intro c hcell
    rcases Memory.mem_write _ _ _ _ hcell with rfl | hold
    · have hl := h.log_len_eq
      refine ⟨show s.log_len < s.nmax by omega, ?_⟩
      have hidx : s.count + 1 < 2 ^ cw s.nmax := lt_two_pow_cw _ _ (by omega)
      show s.snapshot.fits s.nmax = true
      rw [LogEntry.fits_iff]
      exact ⟨⟨⟨hidx, lt_two_pow_mono hA' hnm⟩, lt_two_pow_mono hQ' hnm⟩, lt_two_pow_mono hM hnm⟩
    · exact h.log_bounded c hold
  · intro i hi
    show (Memory.read (stepBody s).Log i).isSome = true
    rw [stepBody_Log, Memory.read_write]
    split
    · rfl
    · exact h.log_readable i (by
        have hi' : i < s.log_len + 1 := hi
        omega)

/-- The step bodies of a RUN, up to `n`, in phase IDLE. -/
theorem StateInv_stepBodies (k : Nat) (s : State) (h : StateInv s) (hc : s.cfg_valid = true) (hk : s.count + k ≤ s.n)
    (hidle : s.phase = .IDLE) : StateInv (stepBodies k s) := by
  induction k generalizing s with
  | zero => exact h
  | succ k ih =>
    have h1 : StateInv (stepBody s) := by
      have := StateInv_stepBody s .IDLE h hc (by omega) (fun hp => nomatch hp)
      have he : stepBody s = { stepBody s with phase := .IDLE } := by
        conv_lhs => rw [show stepBody s = { stepBody s with phase := (stepBody s).phase } from rfl, stepBody_phase, hidle]
      rw [he]; exact this
    exact ih (stepBody s) h1 hc (by simp only [stepBody_count, stepBody_n]; omega) hidle

/-- A clock edge of a RUN keeps the invariant. -/
theorem StateInv_runEdge (s : State) (h : StateInv s) (hc : s.cfg_valid = true) (hlt : s.count < s.n) : StateInv (runEdge s) := by
  unfold runEdge
  dsimp only
  split
  · exact StateInv_respond _ _ (StateInv_stepBody s .IDLE h hc hlt (fun hp => nomatch hp))
  · next hne =>
    refine StateInv_noResponse _ (StateInv_stepBody s .RUN_LOOP h hc hlt (fun _ => ?_))
    simp only [stepBody_count, stepBody_n] at hne
    omega

theorem resolveSource_lt (nmax : Nat) (o : Option Nat) (old : Nat) (h : old < 2 ^ nmax) : resolveSource nmax o old < 2 ^ nmax := by
  cases o with
  | none => exact h
  | some v => exact Nat.mod_lt _ (by positivity)

/-- A RESET that passed its checks gives a state of the invariant. -/
theorem StateInv_loadConfiguration (x y : Option Nat) (bits : Option BitsBus) (s : State) (h : StateInv s) (hidle : s.phase = .IDLE)
    (hcfg : s.cfg_valid = true ∨ allSupplied x y bits = true) (hb : suppliedBitsValid s.nmax bits = true) :
    StateInv (loadConfiguration x y bits s) := by
  have hn : Config.minWidth ≤ resolveWidth bits s.n ∧ resolveWidth bits s.n ≤ s.nmax ∧ resolveWidth bits s.n < 2 ^ bw := by
    cases bits with
    | none =>
      rcases hcfg with hc | hc
      · exact ⟨(h.configured hc).1, (h.configured hc).2.1, h.physical.2.2.2.2.2⟩
      · simp [allSupplied] at hc
    | some b =>
      simp only [suppliedBitsValid, bitsValid, Bool.and_eq_true, decide_eq_true_eq] at hb
      exact ⟨hb.1, hb.2, b.isLt⟩
  obtain ⟨h4, hnm, hbw⟩ := hn
  have hM := toTwosComplement_lt (resolveSource s.nmax x s.src_x : Int) (resolveWidth bits s.n)
  have hQ := toTwosComplement_lt (resolveSource s.nmax y s.src_y : Int) (resolveWidth bits s.n)
  exact
    { nmax_legal := h.nmax_legal
      physical := ⟨Nat.two_pow_pos _, lt_two_pow_mono hQ hnm, lt_two_pow_mono hM hnm,
        resolveSource_lt _ _ _ h.physical.2.2.2.1, resolveSource_lt _ _ _ h.physical.2.2.2.2.1, hbw⟩
      configured := fun _ => ⟨h4, hnm, Nat.two_pow_pos _, hQ, hM, Nat.zero_le _⟩
      unconfigured := fun hf => nomatch hf
      log_len_eq := rfl
      busy_running := fun hp => by rw [loadConfiguration_phase, hidle] at hp; exact nomatch hp
      log_wf := h.log_wf
      log_bounded := h.log_bounded
      log_readable := fun _ hi => absurd hi (Nat.not_lt_zero _)
      status_produced := h.status_produced }

end Sys2Proof.Machine
end

