-- ==== Sys2Proof/Laws/PerInstr.lean ====
section
/-! SUPPORT. Statements about every instruction as syntax, one lemma per constructor. -/

namespace Sys2Proof.Laws

/-- The number an encoded instruction has on its own wires: the command word or the action code. -/
def wordNumber : Encoded → Nat
  | .command c => c.cmd_word.toNat
  | .action code => code.toNat

/-- The row of spec/opcode_table.json an instruction belongs to. -/
def rowOf : Instr → Option OpcodeRow
  | .reset _ _ _ => commandRows[0]?
  | .step => commandRows[1]?
  | .run => commandRows[2]?
  | .actNone => actionRows[0]?
  | .actAdd => actionRows[1]?
  | .actSubtract => actionRows[2]?

/-- The instruction's encoding has the fixed bits of its row of the opcode table (30_encoding.md R76, R80). -/
def EncodesToItsRow.Statement (i : Instr) : Prop := ∃ r, rowOf i = some r ∧ r.matches (wordNumber (encode i)) = true

theorem EncodesToItsRow.reset (x y : Option Nat) (bits : Option BitsBus) : EncodesToItsRow.Statement (.reset x y bits) := by
  have every : ∀ sel : BitVec 3, (OpcodeRow.mk "RESET" 8 0x01 0x8F).matches (CmdWord.pack sel opReset).toNat = true := by decide
  exact ⟨_, rfl, every (selOf x y bits)⟩

theorem EncodesToItsRow.step : EncodesToItsRow.Statement .step := ⟨_, rfl, rfl⟩
theorem EncodesToItsRow.run : EncodesToItsRow.Statement .run := ⟨_, rfl, rfl⟩
theorem EncodesToItsRow.actNone : EncodesToItsRow.Statement .actNone := ⟨_, rfl, rfl⟩
theorem EncodesToItsRow.actAdd : EncodesToItsRow.Statement .actAdd := ⟨_, rfl, rfl⟩
theorem EncodesToItsRow.actSubtract : EncodesToItsRow.Statement .actSubtract := ⟨_, rfl, rfl⟩

end Sys2Proof.Laws
end

