-- ==== Sys2Proof/Laws/Step.lean ====
section
/-! SUPPORT. What a transition can do, said once: the cases of `exec` and of `step`, and that the shared operations keep
the trace. -/

namespace Sys2Proof.Machine

/-- Everything an instruction can do. Either it is a command that ends with a status and writes nothing else, or a
RESET, STEP or RUN that ends with OK, or an action code. -/
theorem exec_cases (i : Instr) (s : State) : ∃ t, exec i s = .next t ∧
    ((isCommand i = true ∧ ∃ st, st ≠ .OK ∧ st ≠ .ILLEGAL_COMMAND ∧ t = respond st s) ∨
      (∃ x y bits, i = .reset x y bits ∧ (s.cfg_valid = true ∨ allSupplied x y bits = true) ∧
        suppliedBitsValid s.nmax bits = true ∧ t = respond .OK (loadConfiguration x y bits s)) ∨
      (i = .step ∧ s.cfg_valid = true ∧ s.count ≠ s.n ∧ t = respond .OK (stepBody s)) ∨
      (i = .run ∧ s.cfg_valid = true ∧ t = respond .OK (runLoop s)) ∨
      (∃ act : Action, i = act.instr ∧ t = { s with A := aluResult act s.A s.M s.n })) := by
  cases i with
  | reset x y bits =>
    show ∃ t, execReset x y bits s = .next t ∧ _
    unfold execReset
    split
    · exact ⟨_, rfl, .inl ⟨rfl, _, by decide, by decide, rfl⟩⟩
    · next h1 =>
      split
      · exact ⟨_, rfl, .inl ⟨rfl, _, by decide, by decide, rfl⟩⟩
      · next h2 =>
        refine ⟨_, rfl, .inr (.inl ⟨x, y, bits, rfl, ?_, by simpa using h2, rfl⟩)⟩
        cases hc : s.cfg_valid <;> simp_all
  | step =>
    show ∃ t, execStep s = .next t ∧ _
    unfold execStep
    split
    · exact ⟨_, rfl, .inl ⟨rfl, _, by decide, by decide, rfl⟩⟩
    · next h1 =>
      split
      · exact ⟨_, rfl, .inl ⟨rfl, _, by decide, by decide, rfl⟩⟩
      · next h2 => exact ⟨_, rfl, .inr (.inr (.inl ⟨rfl, by simpa using h1, h2, rfl⟩))⟩
  | run =>
    show ∃ t, execRun s = .next t ∧ _
    unfold execRun
    split
    · exact ⟨_, rfl, .inl ⟨rfl, _, by decide, by decide, rfl⟩⟩
    · next h1 => exact ⟨_, rfl, .inr (.inr (.inr (.inl ⟨rfl, by simpa using h1, rfl⟩)))⟩
  | actNone => exact ⟨_, rfl, .inr (.inr (.inr (.inr ⟨.none, rfl, rfl⟩)))⟩
  | actAdd => exact ⟨_, rfl, .inr (.inr (.inr (.inr ⟨.add, rfl, rfl⟩)))⟩
  | actSubtract => exact ⟨_, rfl, .inr (.inr (.inr (.inr ⟨.subtract, rfl, rfl⟩)))⟩

/-- Everything accepting a presented command can do. -/
theorem acceptCommand_cases (c : Command) (s : State) :
    (∃ i, decodeCommand s.nmax c = .ok i ∧ isCommand i = true ∧ acceptCommand c s = exec i s) ∨
      (∃ e, decodeCommand s.nmax c = .error e ∧ acceptCommand c s = .next (respond .ILLEGAL_COMMAND s)) := by
  unfold acceptCommand
  cases h : decodeCommand s.nmax c with
  | ok i => exact .inl ⟨i, rfl, decodeCommand_isCommand _ _ _ h, rfl⟩
  | error e => exact .inr ⟨e, rfl, rfl⟩

theorem phase_cases (s : State) : s.phase = .IDLE ∨ s.phase = .RUN_LOOP := by
  cases s.phase
  · exact .inl rfl
  · exact .inr rfl

/-- In phase IDLE with nothing from the host. -/
theorem step_idle_empty (s : State) (hp : s.phase = .IDLE) (hh : s.host = []) : step s = .next (noResponse s) := by
  unfold step nextTransition stepIdle
  split
  · split
    · rfl
    · next h => rw [hh] at h; cases h
  · next h => rw [hp] at h; cases h

/-- In phase IDLE with an input. -/
theorem step_idle_input (s : State) (x : HostInput) (rest : List HostInput) (hp : s.phase = .IDLE) (hh : s.host = x :: rest) :
    step s = inputIdle x { s with host := rest } := by
  unfold step nextTransition stepIdle
  split
  · split
    · next h => rw [hh] at h; cases h
    · next h => rw [hh] at h; cases h; rfl
  · next h => rw [hp] at h; cases h

/-- In phase RUN_LOOP. -/
theorem step_run_loop (s : State) (hp : s.phase = .RUN_LOOP) : step s = .next (stepRunLoop s) := by
  unfold step nextTransition
  split
  · next h => rw [hp] at h; cases h
  · rfl

/-- In phase RUN_LOOP without a hardware reset first: one edge of the RUN; an idle input is used up, a command waits. -/
theorem stepRunLoop_cases (s : State) (h : ∀ l, s.host ≠ .hardwareReset :: l) :
    ∃ rest, stepRunLoop s = runEdge { s with host := rest } := by
  unfold stepRunLoop
  split
  · exact ⟨s.host, rfl⟩
  · exact ⟨s.host, rfl⟩
  · next rest _ => exact ⟨rest, rfl⟩
  · next rest hh => exact absurd hh (h rest)

/-- The hardware reset comes first in either phase. -/
theorem step_hardwareReset (s : State) (rest : List HostInput) (hh : s.host = .hardwareReset :: rest) :
    step s = .next (hardwareReset { s with host := rest }) := by
  cases hp : s.phase with
  | IDLE => rw [step_idle_input s _ rest hp hh]; rfl
  | RUN_LOOP =>
    rw [step_run_loop s hp]
    unfold stepRunLoop
    split
    · next h => rw [hh] at h; cases h
    · next h => rw [hh] at h; cases h
    · next h => rw [hh] at h; cases h
    · next h => rw [hh] at h; cases h; rfl

/-- Everything a transition can do. -/
theorem step_cases (s : State) :
    (s.phase = .IDLE ∧ ∃ l, step s = .next (noResponse { s with host := l })) ∨
      (∃ rest, s.host = .hardwareReset :: rest ∧ step s = .next (hardwareReset { s with host := rest })) ∨
      (∃ c rest, s.phase = .IDLE ∧ s.host = .command c :: rest ∧ step s = acceptCommand c { s with host := rest }) ∨
      (s.phase = .RUN_LOOP ∧ ∃ l, step s = .next (runEdge { s with host := l })) := by
  rcases phase_cases s with hp | hp
  · rcases hh : s.host with _ | ⟨x, rest⟩
    · exact .inl ⟨hp, s.host, step_idle_empty s hp hh⟩
    · have hs := step_idle_input s x rest hp hh
      cases x with
      | command c => exact .inr (.inr (.inl ⟨c, rest, hp, rfl, hs⟩))
      | idle => exact .inl ⟨hp, rest, hs⟩
      | hardwareReset => exact .inr (.inl ⟨rest, rfl, hs⟩)
  · by_cases hr : ∃ l, s.host = .hardwareReset :: l
    · obtain ⟨l, hl⟩ := hr
      exact .inr (.inl ⟨l, hl, step_hardwareReset s l hl⟩)
    · obtain ⟨l, hl⟩ := stepRunLoop_cases s (fun l hl => hr ⟨l, hl⟩)
      exact .inr (.inr (.inr ⟨hp, l, by rw [step_run_loop s hp, hl]⟩))

/-! ## The host's probe -/

/-- With every operand bus 0 a word decodes the same for every NMAX. -/
theorem decodeCommand_commandOfNat (nmax w : Nat) : decodeCommand nmax (commandOfNat w) = decodeCommand 0 (commandOfNat w) := by
  simp [decodeCommand, commandOfNat, busValue]

/-- The probe of a command word runs the instruction that the decoder reads from that word, in the state it was given. -/
theorem step_withFetchWord (s : State) (w : Nat) (i : Instr) (h : decodeTableWord 8 w = some i) :
    step (s.withFetchWord 8 w) = exec i { s with phase := .IDLE } := by
  have hs : step (s.withFetchWord 8 w) = acceptCommand (commandOfNat (w % 2 ^ 8)) { s with phase := .IDLE } := rfl
  have hd : decodeTableWord 8 w = (match decodeCommand 0 (commandOfNat (w % 2 ^ 8)) with
    | .ok i => some i
    | .error _ => none) := rfl
  rw [hd] at h
  rw [hs]
  unfold acceptCommand
  rw [decodeCommand_commandOfNat]
  revert h
  cases decodeCommand 0 (commandOfNat (w % 2 ^ 8)) with
  | ok j => intro h; cases h; rfl
  | error e => intro h; cases h

/-! ## The trace, operation by operation -/

theorem Traced_respond (st : Status) (s : State) (h : Traced s) : Traced (respond st s) :=
  { multiplicand := h.multiplicand, registers := h.registers, log := h.log }

theorem Traced_noResponse (s : State) (h : Traced s) : Traced (noResponse s) :=
  { multiplicand := h.multiplicand, registers := h.registers, log := h.log }

theorem Traced_host (s : State) (l : List HostInput) (h : Traced s) : Traced { s with host := l } :=
  { multiplicand := h.multiplicand, registers := h.registers, log := h.log }

theorem Traced_phase (s : State) (ph : Phase) (h : Traced s) : Traced { s with phase := ph } :=
  { multiplicand := h.multiplicand, registers := h.registers, log := h.log }

theorem Traced_unconfigured (s : State) (h : s.cfg_valid = false) : Traced s := by
  have hn : ¬ s.cfg_valid = true := by rw [h]; decide
  exact { multiplicand := fun hc => absurd hc hn, registers := fun hc => absurd hc hn, log := fun hc => absurd hc hn }

theorem Traced_loadConfiguration (x y : Option Nat) (bits : Option BitsBus) (s : State) :
    Traced (loadConfiguration x y bits s) :=
  { multiplicand := fun _ => rfl, registers := fun _ => rfl, log := fun _ k hk => absurd hk (Nat.not_lt_zero k) }

/-- One step body extends the trace by one iteration. -/
theorem Traced_stepBody (s : State) (hl : s.log_len = s.count) (h : Traced s) : Traced (stepBody s) :=
  { multiplicand := h.multiplicand
    registers := fun hc => by
      rw [stepBody_regs, h.registers hc]
      rfl
    log := fun hc k hk => by
      rw [stepBody_Log, Memory.read_write, snapshot_eq, hl]
      have hk' : k < s.count + 1 := hk
      split
      · next he =>
        rw [he, h.registers hc]
        rfl
      · next he => exact h.log hc k (by omega) }

end Sys2Proof.Machine
end

