-- ==== Sys2Proof/Tests/Slice0.lean ====
section
/-! SUPPORT. Small tests and witnesses. Expected values are the spec's own (95_test_vectors.md, and the worked examples of
30_encoding.md, 40_datapath.md and 41_engine.md), at NMAX = 8 where a vector needs one. -/

namespace Sys2Proof.Tests

open Sys2Proof Sys2Proof.Machine

/-! ## Helpers -/

/-- The next state, if there is one. -/
def nextOf : Host.Outcome State Fault Refusal → Option State
  | .next s => some s
  | .fault _ => none
  | .refused _ => none

/-- The registers a vector gives: A, Q, q1, count. -/
def regsOf (o : Host.Outcome State Fault Refusal) : Option (Nat × Nat × Bool × Nat) :=
  (nextOf o).map (fun s => (s.A, s.Q, s.q1, s.count))

/-- The status code a command ended with. -/
def statusOf (o : Host.Outcome State Fault Refusal) : Option StatusCode := (nextOf o).map (·.rsp_status)

/-- The value a port read gives. -/
def valueOf (o : Host.Outcome Nat Fault Refusal) : Option Nat :=
  match o with
  | .next v => some v
  | .fault _ => none
  | .refused _ => none

/-- After `RESET x=3 y=-4 bits=4` (95_test_vectors.md 2.8 row 1, W6). -/
def fresh : State := { State.resetFor 8 with cfg_valid := true, n := 4, src_x := 0x03, src_y := 0xFC, M := 0b0011, Q := 0b1100 }

/-- The log of P1 (95_test_vectors.md). -/
def logP1 : Memory :=
  [(0, ⟨1, .none, 0b0000, 0b0110, false, 0b0011⟩), (1, ⟨2, .none, 0b0000, 0b0011, false, 0b0011⟩),
   (2, ⟨3, .subtract, 0b1110, 0b1001, true, 0b0011⟩), (3, ⟨4, .none, 0b1111, 0b0100, true, 0b0011⟩)]

/-- W6 after two steps. -/
def mid : State := { fresh with A := 0b0000, Q := 0b0011, count := 2, log_len := 2, Log := logP1.take 2 }

/-- W6 after two steps, in the middle of a RUN. -/
def busy : State := { mid with phase := .RUN_LOOP }

/-- W6 after four steps. -/
def finished : State := { fresh with A := 0b1111, Q := 0b0100, q1 := true, count := 4, log_len := 4, Log := logP1 }

/-- A command on the port. -/
def cmd (w : CmdWord) (x y : Nat) (bits : BitsBus) : Command := ⟨w, x, y, bits⟩

/-! ## WellFormed: an ill-formed term for each check -/

theorem test_wellFormed_refuses_wide_multiplicand : (Instr.reset (some 256) none none).wellFormed 8 = false := by decide
theorem test_wellFormed_refuses_wide_multiplier : (Instr.reset none (some 256) none).wellFormed 8 = false := by decide
theorem test_wellFormed_accepts_widest : (Instr.reset (some 255) (some 255) (some 65535#16)).wellFormed 8 = true := by decide
theorem test_command_wellFormed_refuses_wide_bus : (cmd 0x71#8 256 0 4#16).wellFormed 8 = false := by decide

/-! ## Decoding: words written out from 30_encoding.md R68, R80 -/

theorem test_decode_create : decodeCommand 8 (cmd 0b01110001#8 0x03 0xFC 4#16) = .ok (.reset (some 0x03) (some 0xFC) (some 4#16)) := by decide
theorem test_decode_restart : decodeCommand 8 (cmd 0b00000001#8 1 2 3#16) = .ok (.reset none none none) := by decide
theorem test_decode_step : decodeCommand 8 (cmd 0b00000010#8 1 2 3#16) = .ok .step := by decide
theorem test_decode_run : decodeCommand 8 (cmd 0b00000011#8 1 2 3#16) = .ok .run := by decide
theorem test_decode_act_none : decode 8 (.action 0b00#2) = .ok .actNone := by decide
theorem test_decode_act_add : decode 8 (.action 0b01#2) = .ok .actAdd := by decide
theorem test_decode_act_subtract : decode 8 (.action 0b10#2) = .ok .actSubtract := by decide
/-- 95_test_vectors.md 2.11. -/
theorem test_decode_illegal : ([0x00#8, 0x04#8, 0x0F#8, 0x12#8, 0x82#8, 0x81#8, 0xFF#8].map (fun w => legalWord w)).all (· == false) = true := by
  decide
/-- 30_encoding.md R76, R77: of the 256 words exactly the ten listed are legal. -/
theorem test_decode_legal_words : ∀ w : CmdWord, legalWord w =
    [0x01#8, 0x11#8, 0x21#8, 0x31#8, 0x41#8, 0x51#8, 0x61#8, 0x71#8, 0x02#8, 0x03#8].contains w := by decide

/-- The table's numbering: a command row has 8 bits; an action row has its own 2 bits. -/
theorem test_table_command_words : [0x01, 0x02, 0x03, 0x00].map (decodeTableWord 8) =
    [some (.reset none none none), some .step, some .run, none] := by decide
theorem test_table_action_words : [0, 1, 2].map (decodeTableWord 2) = [some .actNone, some .actAdd, some .actSubtract] := by decide

/-! ## The datapath: 95_test_vectors.md 2.1 to 2.7 -/

theorem test_toTwosComplement : [(-4, 4), (-1, 4), (8, 4), (16, 4), (-9, 4), (5, 4), (300, 8), (-128, 8)].map
    (fun p : Int × Nat => toTwosComplement p.1 p.2) = [12, 15, 8, 0, 7, 5, 44, 128] := by decide
theorem test_fromTwosComplement : [(12, 4), (8, 4), (7, 4), (0, 4), (15, 4), (0x80, 8), (0x7F, 8)].map
    (fun p : Nat × Nat => fromTwosComplement p.1 p.2) = [-4, -8, 7, 0, -1, -128, 127] := by decide
theorem test_maskedAdd : (maskedAdd 0b0111 0b0001 4, maskedAdd 0b1111 0b0001 4, maskedAdd 0b11111001 0b00000111 8, maskedAdd 0b1000 0b1000 4) =
    (0b1000, 0b0000, 0b00000000, 0b0000) := by decide
theorem test_maskedSub : (maskedSub 0b0000 0b0011 4, maskedSub 0b0000 0b1000 4, maskedSub 0b0011 0b0000 4, maskedSub 0b1000 0b0001 4,
    maskedSub 0b0100 0b1000 4) = (0b1101, 0b1000, 0b0011, 0b0111, 0b1100) := by decide
theorem test_shift : [(0b1101, 0b0011, false), (0b1000, 0b0000, false), (0b1111, 0b1111, true), (0b0001, 0b0000, true), (0b0111, 0b0001, false)].map
    (fun p : Nat × Nat × Bool => shiftRightArithmeticAQ ⟨p.1, p.2.1, p.2.2⟩ 4) =
    [⟨0b1110, 0b1001, true⟩, ⟨0b1100, 0b0000, false⟩, ⟨0b1111, 0b1111, true⟩, ⟨0b0000, 0b1000, false⟩, ⟨0b0011, 0b1000, true⟩] := by decide
theorem test_products : [(0b1111, 0b0100), (0b0000, 0b1111), (0b1000, 0b0000), (0b0111, 0b1111), (0b1111, 0b1111)].map
    (fun p : Nat × Nat => (ProductU p.1 p.2 4, ProductS p.1 p.2 4)) = [(244, -12), (15, 15), (128, -128), (127, 127), (255, -1)] := by decide
theorem test_signed_views : (sext 4 16 0b1111, sext 4 16 0b0111, sext 4 16 0b1000) = (0xFFFF, 0x0007, 0xFFF8) := by decide

/-! ## Commands: 95_test_vectors.md 2.8 to 2.10 -/

theorem test_reset_create : (nextOf (exec (.reset (some 0x03) (some 0xFC) (some 4#16)) State.reset)).map
    (fun s => (s.M, s.Q, s.A, s.q1, s.count, s.n)) = some (0b0011, 0b1100, 0, false, 0, 4) := by decide
/-- P5: narrowing keeps the low bits of the stored source. -/
theorem test_reset_narrow : (nextOf (exec (.reset none none (some 4#16)) { fresh with n := 8, src_x := 0x64, src_y := 0xFD })).map
    (fun s => (s.M, s.Q, s.src_x)) = some (0b0100, 0b1101, 0x64) := by decide
theorem test_step_subtract : regsOf (exec .step mid) = some (0b1110, 0b1001, true, 3) := by decide
theorem test_step_add : regsOf (exec .step { mid with A := 0b1100, Q := 0b0000, q1 := true, M := 0b1000, count := 1 }) =
    some (0b0010, 0b0000, false, 2) := by decide
theorem test_run_w6 : regsOf (exec .run fresh) = some (0b1111, 0b0100, true, 4) := by decide
theorem test_run_w6_log : (nextOf (exec .run fresh)).map (·.Log) = some logP1 := by decide
/-- P4: the most negative multiplicand gives +8, not -8. -/
theorem test_run_c1 : (nextOf (exec .run { fresh with M := 0b1000, Q := 0b0001, src_x := 0xF8, src_y := 1 })).map
    (fun s => (s.A, s.Q, s.q1, ProductS s.A s.Q s.n)) = some (0b0000, 0b1000, false, 8) := by decide
theorem test_act_none : regsOf (exec .actNone mid) = some (0b0000, 0b0011, false, 2) := by decide
theorem test_act_add : regsOf (exec .actAdd { mid with A := 0b1111, M := 0b0001 }) = some (0b0000, 0b0011, false, 2) := by decide
theorem test_act_subtract : regsOf (exec .actSubtract mid) = some (0b1101, 0b0011, false, 2) := by decide

/-- 95_test_vectors.md 2.11: statuses by word, in the state the row names. -/
theorem test_statuses : (statusOf (acceptCommand (cmd 0x00#8 0 0 0#16) fresh), statusOf (acceptCommand (cmd 0x12#8 0 0 0#16) State.reset),
    statusOf (acceptCommand (cmd 0x02#8 0 0 0#16) finished), statusOf (acceptCommand (cmd 0x03#8 0 0 0#16) finished),
    statusOf (acceptCommand (cmd 0x41#8 0 0 3#16) State.reset), statusOf (acceptCommand (cmd 0x71#8 0 0 3#16) State.reset)) =
    (some 4#3, some 4#3, some 1#3, some 0#3, some 3#3, some 2#3) := by decide

/-! ## Ports and probes -/

/-- P1: what the ports show at the end, and entry 4 is not valid. -/
theorem test_ports_p1 : (valueOf (readObs .obs_status finished), valueOf (readObs .obs_prod_u finished), valueOf (readObs .obs_prod_s finished),
    logRvalid 3 finished, logRvalid 4 finished) = (some 0x03, some 0x00F4, some 0xFFF4, true, false) := by decide
theorem test_sizes : (dw 8, cw 8, bw) = (16, 4, 16) := by decide
/-- The probe: from reset, the very next step takes the word (RESET with no operand is NOT_CONFIGURED; 0x00 is illegal). -/
theorem test_probe_from_reset : (statusOf (step (State.reset.withFetchWord 8 0x01)), statusOf (step (State.reset.withFetchWord 8 0x00))) =
    (some 3#3, some 4#3) := by decide
/-- The probe of an action code: the very next step runs with that action. -/
theorem test_probe_actions : [0, 1, 2].map (fun w => (nextOf (step (State.reset.withFetchWord 2 w))).map (fun s => (Memory.read s.Log 0).map (·.act))) =
    [some (some .none), some (some .add), some (some .subtract)] := by decide
theorem test_queue_is_taken_in_order : (nextOf (step { fresh with host := [.command (cmd 0x02#8 0 0 0#16), .idle] })).map
    (fun s => (s.count, s.host)) = some (1, [.idle]) := by decide

/-! ## Witnesses: states that meet the hypotheses of the statements -/

theorem witness_StateInv_fresh : StateInv fresh :=
  ⟨by decide, by decide, by decide, by decide, by decide, by decide, by decide, by decide, by decide, by decide⟩
theorem witness_StateInv_mid : StateInv mid :=
  ⟨by decide, by decide, by decide, by decide, by decide, by decide, by decide, by decide, by decide, by decide⟩
theorem witness_StateInv_busy : StateInv busy :=
  ⟨by decide, by decide, by decide, by decide, by decide, by decide, by decide, by decide, by decide, by decide⟩
theorem witness_StateInv_finished : StateInv finished :=
  ⟨by decide, by decide, by decide, by decide, by decide, by decide, by decide, by decide, by decide, by decide⟩
theorem witness_Traced_busy : Traced busy := ⟨by decide, by decide, by decide⟩
theorem witness_Traced_finished : Traced finished := ⟨by decide, by decide, by decide⟩

theorem witness_HardwareResetLeavesUnconfigured : ∃ t : State, t = hardwareReset busy := ⟨_, rfl⟩
theorem witness_HardwareResetAtAnyTime : ({ busy with host := [.hardwareReset] } : State).host = .hardwareReset :: [] ∧
    (⟨false, true, cmd 0x03#8 0 0 0#16⟩ : Pins).rst_n = false ∧ busy.phase = .RUN_LOOP := by decide
theorem witness_HardwareResetAtAnyTime_only : ¬ nextIsHardwareReset busy ∧ ∃ t, step busy = .next t ∧ t.phase = .RUN_LOOP :=
  ⟨fun ⟨_, h⟩ => (nomatch h), ⟨_, rfl, rfl⟩⟩
theorem witness_ResetSatisfiesInvariant : nmaxLegal 4 = true ∧ nmaxLegal 65535 = true := by decide
theorem witness_UnspecifiedRegistersAreNotRead : isCommand .step = true ∧ State.reset.cfg_valid = false ∧
    agreeOnDefined State.reset { State.reset with A := 5, n := 7, rsp_status := 6#3, Log := logP1 } := ⟨rfl, rfl, rfl, rfl, rfl, rfl, rfl, rfl, rfl, rfl⟩
/-- Each clause of ResetCommandSemantics at its boundary: 3 and 9 are invalid, 4 and NMAX = 8 are valid. -/
theorem witness_ResetCommandSemantics : (Instr.reset (some 255) (some 0) (some 4#16)).wellFormed 8 = true ∧ State.reset.cfg_valid = false ∧
    ¬ (4 ≤ (3#16).toNat ∧ (3#16).toNat ≤ 8) ∧ (4 ≤ (4#16).toNat ∧ (4#16).toNat ≤ 8) ∧ (4 ≤ (8#16).toNat ∧ (8#16).toNat ≤ 8) ∧
    ¬ (4 ≤ (9#16).toNat ∧ (9#16).toNat ≤ 8) ∧ fresh.cfg_valid = true := by decide
theorem witness_ResetIsIdempotent : ∃ t, exec (.reset none none none) fresh = .next t := ⟨_, rfl⟩
theorem witness_configured : fresh.cfg_valid = true ∧ mid.cfg_valid = true ∧ finished.cfg_valid = true := by decide
theorem witness_StoredSourceLosesNothing : 4 ≤ 8 := by decide
theorem witness_ProductDependsOnLowBitsOnly : bitsValid 8 4#16 = true ∧ 3 % 2 ^ (4#16).toNat = 19 % 2 ^ (4#16).toNat := by decide
/-- StepCommandSemantics, StepAppendsOneEntry: each branch. -/
theorem witness_step_branches : State.reset.cfg_valid = false ∧ finished.count = finished.n ∧ mid.count ≠ mid.n ∧
    ({ mid with count := 3 } : State).count ≠ mid.n := by decide
theorem witness_SnapshotEqualsObservationPorts : StateInv mid ∧ mid.running = true := ⟨witness_StateInv_mid, by decide⟩
theorem witness_StepCountLaw : fresh.cfg_valid = true ∧ fresh.count = 0 ∧ fresh.log_len = 0 ∧ 4 ≤ fresh.n := by decide
/-- RunIsTheWhileLoop, RunCompletesRemainingSteps, RunEqualsRemainingSteps, RunResultIsOnThePorts. -/
theorem witness_run_branches : StateInv mid ∧ mid.cfg_valid = true ∧ mid.count < mid.n ∧ ¬ finished.count < finished.n :=
  ⟨witness_StateInv_mid, by decide⟩
theorem witness_StepRunsTheSelectedAction : mid.cfg_valid = true ∧ mid.count ≠ mid.n := by decide
/-- The datapath statements at the least width and at a width of the engine. -/
theorem witness_datapath : 1 ≤ 1 ∧ 1 ≤ 4 ∧ 0b1000 < 2 ^ 4 ∧ 0b1111 < 2 ^ 4 ∧ (-2 ^ (4 - 1) : Int) ≤ -8 ∧ (-8 : Int) ≤ 2 ^ (4 - 1) - 1 := by decide
/-- BoothProductOfResetThenRun: both clauses, at n = 4 = the least width. -/
theorem witness_BoothProductOfResetThenRun : bitsValid 8 4#16 = true ∧ fromTwosComplement (toTwosComplement 3 4) 4 ≠ -8 ∧
    fromTwosComplement (toTwosComplement (-8) 4) 4 = -8 := by decide
theorem witness_DoneStateHoldsProduct : StateInv finished ∧ Traced finished ∧ finished.done = true :=
  ⟨witness_StateInv_finished, witness_Traced_finished, by decide⟩
/-- InvariantKeptByStep, TraceKeptByStep, InvariantKeptByClockEdge. -/
theorem witness_kept_by_step : StateInv busy ∧ Traced busy ∧ (∃ t, step busy = .next t) ∧
    ∃ t, clockEdge ⟨true, false, cmd 0#8 0 0 0#16⟩ busy = .next t :=
  ⟨witness_StateInv_busy, witness_Traced_busy, ⟨_, rfl⟩, ⟨_, rfl⟩⟩
theorem witness_ConfigurationChangesOnlyByReset :
    ∃ t, step { fresh with host := [.command (cmd 0x11#8 2 0 0#16)] } = .next t ∧ t.M ≠ fresh.M := ⟨_, rfl, by decide⟩
theorem witness_ConfiguredOnlyByFullReset :
    (∃ t, step { State.reset with host := [.command (cmd 0x71#8 3 0xFC 4#16)] } = .next t ∧ t.cfg_valid = true) ∧
    ∃ t, step { fresh with host := [.hardwareReset] } = .next t ∧ t.cfg_valid = false := ⟨⟨_, rfl, by decide⟩, ⟨_, rfl, rfl⟩⟩
theorem witness_CommandFrame : Memory.wf mid.Log = true ∧ 0 < mid.log_len ∧ isCommand .actAdd = false := by decide
theorem witness_ErrorStatusesWriteNothing : statusOf (acceptCommand (cmd 0x41#8 0 0 0#16) mid) ≠ some 0#3 := by decide
theorem witness_EngineStates : StateInv fresh ∧ fresh.cfg_valid = true ∧ State.reset.cfg_valid = false ∧
    statusOf (exec (.reset none none none) fresh) = some 0#3 := ⟨witness_StateInv_fresh, by decide⟩
theorem witness_IllegalWordsAnswerIllegalCommand : fresh.phase = .IDLE ∧
    ∀ w ∈ [0x80#8, 0x04#8, 0x12#8, 0x00#8], w ∉ [0x01#8, 0x11#8, 0x21#8, 0x31#8, 0x41#8, 0x51#8, 0x61#8, 0x71#8, 0x02#8, 0x03#8] := by decide
theorem witness_UnreadBusesAreIgnored : (0x11#8 : CmdWord).getLsbD 4 = true ∧ (0x11#8 : CmdWord).getLsbD 5 = false := by decide
theorem witness_DecodeOfEncode : (Instr.reset (some 255) (some 255) (some 0#16)).wellFormed 8 = true := by decide
theorem witness_EncodeOfDecode : decodeCommand 8 (cmd 0x41#8 9 9 4#16) = .ok (.reset none none (some 4#16)) ∧ decode 8 (.action 2#2) = .ok .actSubtract := by
  decide
theorem witness_StepRunsTheDecodedCommand : fresh.phase = .IDLE ∧ decodeCommand 8 (cmd 0x02#8 0 0 0#16) = .ok .step := by decide
theorem witness_BusyCommandWaits : busy.phase = .RUN_LOOP ∧ busy.count + 1 ≠ busy.n ∧ ({ busy with count := 3 } : State).count + 1 = busy.n := by decide
theorem witness_UnconfiguredReadsFault : State.reset.cfg_valid = false ∧ ObsPort.obs_A ≠ .obs_status ∧ ObsPort.obs_A ≠ .obs_log_len := by decide
/-- EngineStates: the STEP that makes `count = n` enters DONE, and RESTART leaves it. -/
theorem witness_EngineStates_enters : ∃ t, step { mid with count := 3, log_len := 3, host := [.command (cmd 0x02#8 0 0 0#16)] } = .next t ∧
    t.done = true := ⟨_, rfl, by decide⟩
theorem witness_EngineStates_leaves : ∃ t, step { finished with host := [.command (cmd 0x01#8 0 0 0#16)] } = .next t ∧ t.done = false :=
  ⟨_, rfl, by decide⟩
/-- StatusPriority and StatusWordFields: nothing presented, and an idle edge. -/
theorem witness_nothing_presented : fresh.phase = .IDLE ∧ fresh.host = [] ∧ ({ fresh with host := [.idle] } : State).host = .idle :: [] := by decide
/-- StepAppendsOneEntry: a RESET that ends with OK empties a log that is not empty. -/
theorem witness_StepAppendsOneEntry : (nextOf (exec (.reset none none none) mid)).map (fun t => (t.rsp_status, t.log_len)) = some (0#3, 0) ∧
    mid.log_len = 2 := by decide
/-- PortValuesFitTheirPorts, LogPortValidity, LogRecordsEveryStep: the last entry, and the first index that is not valid. -/
theorem witness_reads : StateInv finished ∧ Traced finished ∧ finished.cfg_valid = true ∧ 3 < finished.count ∧ logRvalid 3 finished = true ∧
    logRvalid 4 finished = false := ⟨witness_StateInv_finished, witness_Traced_finished, by decide⟩
/-- LogPortValidity at NMAX = 8, where `log_raddr` is 4 wires: the last address, and the first number that does not fit. -/
theorem witness_log_address : logAddress 8 8 = 8 ∧ logAddress 8 15 = 15 ∧ logRvalid 15 finished = false ∧ logAddress 8 16 = 0 ∧
    logRvalid 16 finished = true := by decide
theorem witness_PackedEntryRoundTrip : (⟨4, .subtract, 255, 255, true, 255⟩ : LogEntry).fits 8 = true := by decide
theorem witness_CounterWidthIsLeast : nmaxLegal 8 = true ∧ nmaxLegal 4 = true := by decide
/-- CycleRunEqualsTransaction with two edges from `mid`; MidRunStatesAreWholeSteps with one of four edges from `fresh`. -/
theorem witness_cycle_run : mid.phase = .IDLE ∧ mid.running = true ∧ accepts ⟨true, true, cmd 0x03#8 0 0 0#16⟩ mid = true ∧
    decodeCommand mid.nmax (cmd 0x03#8 0 0 0#16) = .ok .run ∧ 1 + 1 = mid.n - mid.count ∧ fresh.running = true ∧ 0 + 1 < fresh.n - fresh.count := by
  decide
theorem witness_OtherCommandsCompleteAtAcceptance : accepts ⟨true, true, cmd 0x02#8 0 0 0#16⟩ mid = true ∧
    decodeCommand mid.nmax (cmd 0x02#8 0 0 0#16) ≠ .ok .run ∧ finished.running = false := by decide
theorem witness_ReadyExactlyWhenIdle : accepts ⟨true, true, cmd 0x02#8 0 0 0#16⟩ busy = false := by decide
/-- ResponseLastsOneCycle: an idle edge, an accepting edge that completes, a RUN edge that does not complete and one that does. -/
theorem witness_ResponseLastsOneCycle :
    (nextOf (clockEdge ⟨true, false, cmd 0#8 0 0 0#16⟩ fresh)).map (fun s => (s.phase, s.rsp_valid)) = some (.IDLE, false) ∧
    (nextOf (clockEdge ⟨true, true, cmd 0x02#8 0 0 0#16⟩ fresh)).map (fun s => (s.phase, s.rsp_valid)) = some (.IDLE, true) ∧
    (nextOf (clockEdge ⟨true, true, cmd 0x02#8 0 0 0#16⟩ finished)).map (fun s => (s.phase, s.rsp_status)) = some (.IDLE, 1#3) ∧
    (nextOf (clockEdge ⟨true, false, cmd 0#8 0 0 0#16⟩ busy)).map (fun s => (s.phase, s.rsp_valid)) = some (.RUN_LOOP, false) ∧
    (nextOf (clockEdge ⟨true, false, cmd 0#8 0 0 0#16⟩ { busy with count := 3 })).map (fun s => (s.phase, s.rsp_valid)) = some (.IDLE, true) := by
  decide

end Sys2Proof.Tests
end

section
/-! The observation ports (10_state.md R36 to R39): when a port has a value, that the value fits the port, and the status
word. -/

namespace Sys2Proof.Machine

/-! ## When a read has a value -/

theorem readObs_of_configured (p : ObsPort) (s : State) (hc : s.cfg_valid = true) : readObs p s = .next (obsValue p s) :=
  if_pos (.inl hc)

theorem readObs_of_alwaysDefined (p : ObsPort) (s : State) (hp : p.alwaysDefined = true) :
    readObs p s = .next (obsValue p s) :=
  if_pos (.inr hp)

theorem readObs_fault_of_unconfigured (p : ObsPort) (s : State) (hc : s.cfg_valid = false) (hp : p.alwaysDefined = false) :
    readObs p s = .fault .observationUnconfigured :=
  if_neg (by simp [hc, hp])

theorem ObsPort.alwaysDefined_eq_false (p : ObsPort) (hs : p ≠ .obs_status) (hl : p ≠ .obs_log_len) :
    p.alwaysDefined = false := by
  unfold ObsPort.alwaysDefined
  split
  · exact absurd rfl hs
  · exact absurd rfl hl
  · rfl

theorem readObs_obs_status (s : State) : readObs .obs_status s = .next s.obs_status.toNat :=
  readObs_of_alwaysDefined .obs_status s rfl

theorem readObs_obs_log_len (s : State) : readObs .obs_log_len s = .next s.log_len :=
  readObs_of_alwaysDefined .obs_log_len s rfl

/-! ## The value fits the port -/

/-- The unsigned product of two `n`-bit registers is a `2n`-bit number (40_datapath.md R100). -/
theorem ProductU_lt (A Q n : Nat) (hA : A < 2 ^ n) (hQ : Q < 2 ^ n) : ProductU A Q n < 2 ^ (2 * n) :=
  calc A * 2 ^ n + Q < A * 2 ^ n + 2 ^ n := Nat.add_lt_add_left hQ _
    _ = (A + 1) * 2 ^ n := (Nat.succ_mul A _).symm
    _ ≤ 2 ^ n * 2 ^ n := Nat.mul_le_mul_right _ hA
    _ = 2 ^ (2 * n) := by rw [← Nat.pow_add, Nat.two_mul]

/-- An NMAX-bit register fits a data port, which is twice as wide. -/
theorem lt_two_pow_dw {v nmax : Nat} (h : v < 2 ^ nmax) : v < 2 ^ dw nmax :=
  lt_two_pow_mono h (Nat.le_mul_of_pos_left nmax Nat.two_pos)

/-- In a configured state of the invariant every port's value fits the width that 10_state.md R36 gives the port. -/
theorem obsValue_lt_width (p : ObsPort) (s : State) (h : StateInv s) (hc : s.cfg_valid = true) :
    obsValue p s < 2 ^ p.width s.nmax := by
  obtain ⟨-, hn, hA, hQ, -, hcount⟩ := h.configured hc
  obtain ⟨hpA, hpQ, hpM, -, -, hpn⟩ := h.physical
  have hcw : s.count < 2 ^ cw s.nmax := lt_two_pow_cw _ _ (hcount.trans hn)
  cases p with
  | obs_A => exact lt_two_pow_dw hpA
  | obs_Q => exact lt_two_pow_dw hpQ
  | obs_M => exact lt_two_pow_dw hpM
  | obs_q1 => exact Bool.toNat_lt s.q1
  | obs_count => exact hcw
  | obs_n => exact hpn
  | obs_log_len => exact h.log_len_eq.trans_lt hcw
  | obs_status => exact s.obs_status.isLt
  | obs_A_s => exact toTwosComplement_lt _ _
  | obs_Q_s => exact toTwosComplement_lt _ _
  | obs_M_s => exact toTwosComplement_lt _ _
  | obs_prod_u => exact lt_two_pow_mono (ProductU_lt _ _ _ hA hQ) (Nat.mul_le_mul_left 2 hn)
  | obs_prod_s => exact toTwosComplement_lt _ _

/-! ## The status word -/

/-- Each bit of the status word (10_state.md R39). -/
theorem obs_status_getLsbD (s : State) (i : Nat) :
    s.obs_status.getLsbD i = match i with
      | 0 => s.cfg_valid
      | 1 => s.done
      | 2 => s.busy
      | _ => false := by
  unfold State.obs_status
  rw [BitVec.getLsbD_append, BitVec.getLsbD_append, BitVec.getLsbD_append]
  rcases i with _ | _ | _ | i <;> simp

@[simp] theorem obs_status_hardwareReset (s : State) : (hardwareReset s).obs_status = 0#8 := by
  have hdone : (hardwareReset s).done = false := rfl
  have hbusy : (hardwareReset s).busy = false := rfl
  rw [State.obs_status, hdone, hbusy, hardwareReset_cfg_valid]
  rfl

@[simp] theorem obs_status_noResponse (s : State) : (noResponse s).obs_status = s.obs_status := rfl

/-- In phase IDLE with nothing presented a transition only lowers `rsp_valid` and uses up an idle input. -/
theorem step_nothing_presented (s : State) (hp : s.phase = .IDLE) (hh : s.host = [] ∨ ∃ rest, s.host = .idle :: rest) :
    ∃ l, step s = .next (noResponse { s with host := l }) := by
  obtain hh | ⟨rest, hh⟩ := hh
  · exact ⟨s.host, step_idle_empty s hp hh⟩
  · exact ⟨rest, step_idle_input s .idle rest hp hh⟩

/-! ## The obligations -/

/-- Settles O50: the values by the read's definition, the widths by `obsValue_lt_width`. -/
theorem portValuesFitTheirPorts : Obligations.PortValuesFitTheirPorts := by
  unfold Obligations.PortValuesFitTheirPorts
  refine ⟨fun s hc => ?_, fun s => ⟨readObs_obs_log_len s, readObs_obs_status s⟩, fun s p h hc => ?_⟩
  · have hread := fun p => readObs_of_configured p s hc
    exact ⟨hread .obs_A, hread .obs_Q, hread .obs_M, hread .obs_q1, hread .obs_count, hread .obs_n, hread .obs_A_s,
      hread .obs_Q_s, hread .obs_M_s, hread .obs_prod_u, hread .obs_prod_s⟩
  · have hlt := obsValue_lt_width p s h hc
    exact ⟨obsValue p s, readObs_of_configured p s hc, by cases p <;> exact hlt⟩

/-- Settles O37: the bits one by one; a transition with nothing presented touches no register that the word shows. -/
theorem statusWordFields : Obligations.StatusWordFields := by
  unfold Obligations.StatusWordFields
  refine ⟨fun s => ?_, obs_status_hardwareReset, fun s hp hh => ?_⟩
  · refine ⟨obs_status_getLsbD s 0, obs_status_getLsbD s 1, obs_status_getLsbD s 2, fun i hi => ?_, readObs_obs_status s⟩
    obtain ⟨k, rfl⟩ := Nat.exists_eq_add_of_le' hi
    exact obs_status_getLsbD s (k + 3)
  · obtain ⟨l, hl⟩ := step_nothing_presented s hp hh
    exact ⟨_, hl, obs_status_noResponse _⟩

/-- Settles O49: only the two always-defined ports have a value without a configuration. -/
theorem unconfiguredReadsFault : Obligations.UnconfiguredReadsFault := by
  unfold Obligations.UnconfiguredReadsFault
  intro s p hc
  exact ⟨fun hs hl => readObs_fault_of_unconfigured p s hc (p.alwaysDefined_eq_false hs hl),
    readObs_obs_status s, readObs_obs_log_len s⟩

end Sys2Proof.Machine
end

section
/-! The step log (20_memory.md R52): which instruction writes it, and at which indices. -/

namespace Sys2Proof.Machine

/-! ## STEP by its checks -/

theorem exec_step_of_count_ne_n (s : State) (hc : s.cfg_valid = true) (hne : s.count ≠ s.n) :
    exec .step s = .next (respond .OK (stepBody s)) :=
  (if_neg (by simp [hc])).trans (if_neg hne)

/-- An unconfigured or finished engine answers a STEP with a status and executes nothing. -/
theorem exec_step_of_unconfigured_or_done (s : State) (h : s.cfg_valid = false ∨ s.count = s.n) :
    ∃ st, exec .step s = .next (respond st s) := by
  cases hc : s.cfg_valid with
  | false => exact ⟨.NOT_CONFIGURED, if_pos hc⟩
  | true =>
    have hn : s.count = s.n := h.resolve_left (by simp [hc])
    exact ⟨.DONE, (if_neg (by simp [hc])).trans (if_pos hn)⟩

/-! ## RESET by its status -/

@[simp] theorem Status.code_eq_zero_iff (st : Status) : st.code = 0#3 ↔ st = .OK := by cases st <;> decide

theorem log_len_of_reset_ok (s t : State) (x y : Option Nat) (bits : Option BitsBus)
    (h : exec (.reset x y bits) s = .next t) (hok : t.rsp_status = 0#3) : t.log_len = 0 := by
  obtain ⟨u, hu, hcases⟩ := exec_cases (.reset x y bits) s
  obtain rfl : t = u := by rw [h] at hu; exact Host.Outcome.next.inj hu
  rcases hcases with ⟨-, st, hst, -, rfl⟩ | ⟨x, y, bits, -, -, -, rfl⟩ | ⟨hi, -⟩ | ⟨hi, -⟩ | ⟨act, hi, -⟩
  · exact absurd ((Status.code_eq_zero_iff st).1 hok) hst
  · rfl
  · cases hi
  · cases hi
  · cases act <;> cases hi

/-! ## The indices an instruction writes -/

/-- Step bodies leave every entry outside the indices they append at. -/
theorem stepBodies_read_outside (k : Nat) (s : State) (j : Nat) (h : j < s.log_len ∨ (stepBodies k s).log_len ≤ j) :
    Memory.read (stepBodies k s).Log j = Memory.read s.Log j := by
  rw [stepBodies_log_len] at h
  rw [stepBodies_read, if_neg (by omega)]

/-- An instruction leaves the log as it is, or is a STEP or RUN whose log is that of some number of step bodies. -/
theorem exec_log_cases (i : Instr) (s : State) : ∃ t, exec i s = .next t ∧
    (t.Log = s.Log ∨
      (i = .step ∨ i = .run) ∧ ∃ k, t.Log = (stepBodies k s).Log ∧ t.log_len = (stepBodies k s).log_len) := by
  obtain ⟨t, ht, hcases⟩ := exec_cases i s
  refine ⟨t, ht, ?_⟩
  rcases hcases with ⟨-, st, -, -, rfl⟩ | ⟨x, y, bits, -, -, -, rfl⟩ | ⟨hi, -, -, rfl⟩ | ⟨hi, -, rfl⟩ | ⟨act, -, rfl⟩
  · exact .inl rfl
  · exact .inl rfl
  · exact .inr ⟨.inl hi, 1, rfl, rfl⟩
  · exact .inr ⟨.inr hi, s.n - s.count, rfl, rfl⟩
  · exact .inl rfl

/-- No instruction changes an entry below `log_len`, nor one at or above the `log_len` it leaves; only STEP and RUN write. -/
theorem exec_log_frame (i : Instr) (s : State) : ∃ t, exec i s = .next t ∧
    (∀ j, j < s.log_len ∨ t.log_len ≤ j → Memory.read t.Log j = Memory.read s.Log j) ∧
    (i ≠ .step → i ≠ .run → t.Log = s.Log) := by
  obtain ⟨t, ht, hlog | ⟨hi, k, hlog, hlen⟩⟩ := exec_log_cases i s
  · exact ⟨t, ht, fun j _ => by rw [hlog], fun _ _ => hlog⟩
  · refine ⟨t, ht, fun j hj => ?_, fun hs hr => absurd hi (not_or.2 ⟨hs, hr⟩)⟩
    rw [hlen] at hj
    rw [hlog, stepBodies_read_outside k s j hj]

/-- The log across a STEP: an executed one appends the entry of the registers it leaves, any other writes nothing. -/
theorem exec_step_log (s : State) : ∃ t, exec .step s = .next t ∧
    (s.cfg_valid = true → s.count ≠ s.n →
      t.log_len = s.log_len + 1 ∧
      Memory.read t.Log s.log_len =
        some { idx := t.count, act := boothDecide (s.Q.testBit 0) s.q1, a := t.A, q := t.Q, q1 := t.q1, m := t.M } ∧
      ∀ i, i ≠ s.log_len → Memory.read t.Log i = Memory.read s.Log i) ∧
    (s.cfg_valid = false ∨ s.count = s.n → t.log_len = s.log_len ∧ ∀ i, Memory.read t.Log i = Memory.read s.Log i) := by
  by_cases h : s.cfg_valid = false ∨ s.count = s.n
  · obtain ⟨st, hst⟩ := exec_step_of_unconfigured_or_done s h
    exact ⟨_, hst, fun hc hne => absurd h (by simp [hc, hne]), fun _ => ⟨rfl, fun _ => rfl⟩⟩
  · obtain ⟨hc, hne⟩ := not_or.1 h
    exact ⟨_, exec_step_of_count_ne_n s (Bool.of_not_eq_false hc) hne,
      fun _ _ => ⟨rfl, Memory.read_write_same _ _ _, fun i hi => Memory.read_write_other _ _ i _ hi⟩,
      fun h' => absurd h' h⟩

/-! ## The obligation -/

/-- Settles O12: STEP by its checks, every instruction by `exec_log_frame`, RESET by its status. -/
theorem stepAppendsOneEntry : Obligations.StepAppendsOneEntry := by
  unfold Obligations.StepAppendsOneEntry
  refine ⟨exec_step_log, exec_log_frame, fun s x y bits => ?_⟩
  obtain ⟨t, ht, -⟩ := exec_cases (.reset x y bits) s
  exact ⟨t, ht, log_len_of_reset_ok s t x y bits ht⟩

end Sys2Proof.Machine
end

section
/-! The command port's rows (30_encoding.md R76): each row of match and mask as fields of the word, when a word decodes to
each row, and the words of the assembler's RESET (R83). -/

namespace Sys2Proof

/-! ## The rows as fields of the word -/

theorem resetRow_iff_fields : ∀ w : CmdWord, w &&& 0x8F#8 = 0x01#8 ↔ w.rsv = false ∧ w.op = opReset := by decide

theorem stepRow_iff_fields : ∀ w : CmdWord, w &&& 0xFF#8 = 0x02#8 ↔ w.rsv = false ∧ w.op = opStep ∧ w.sel = 0#3 := by decide

theorem runRow_iff_fields : ∀ w : CmdWord, w &&& 0xFF#8 = 0x03#8 ↔ w.rsv = false ∧ w.op = opRun ∧ w.sel = 0#3 := by decide

/-- The listed words are those of the three rows: the eight masks `sel` of RESET, and one word each of STEP and RUN. -/
theorem mem_legalWords_iff_rows : ∀ w : CmdWord,
    w ∈ [0x01#8, 0x11#8, 0x21#8, 0x31#8, 0x41#8, 0x51#8, 0x61#8, 0x71#8, 0x02#8, 0x03#8] ↔
      w &&& 0x8F#8 = 0x01#8 ∨ w &&& 0xFF#8 = 0x02#8 ∨ w &&& 0xFF#8 = 0x03#8 := by decide

/-! ## What decodes to each row -/

theorem decodeCommand_reset_iff (nmax : Nat) (c : Command) :
    (∃ x y b, decodeCommand nmax c = .ok (.reset x y b)) ↔ c.cmd_word &&& 0x8F#8 = 0x01#8 := by
  rw [resetRow_iff_fields]
  constructor
  · rintro ⟨x, y, b, h⟩
    obtain ⟨hr, ⟨ho, -⟩ | ⟨-, -, hi⟩ | ⟨-, -, hi⟩⟩ := decodeCommand_cases nmax c _ h
    · exact ⟨hr, ho⟩
    · cases hi
    · cases hi
  · rintro ⟨hr, ho⟩
    exact ⟨_, _, _, by simp only [decodeCommand, hr, ho, if_true]; rfl⟩

theorem decodeCommand_step_iff (nmax : Nat) (c : Command) :
    decodeCommand nmax c = .ok .step ↔ c.cmd_word &&& 0xFF#8 = 0x02#8 := by
  rw [stepRow_iff_fields]
  constructor
  · intro h
    obtain ⟨hr, ⟨-, hi⟩ | ⟨ho, hs, -⟩ | ⟨-, -, hi⟩⟩ := decodeCommand_cases nmax c _ h
    · cases hi
    · exact ⟨hr, ho, hs⟩
    · cases hi
  · rintro ⟨hr, ho, hs⟩
    simp [decodeCommand, hr, ho, hs, opReset, opStep]

theorem decodeCommand_run_iff (nmax : Nat) (c : Command) :
    decodeCommand nmax c = .ok .run ↔ c.cmd_word &&& 0xFF#8 = 0x03#8 := by
  rw [runRow_iff_fields]
  constructor
  · intro h
    obtain ⟨hr, ⟨-, hi⟩ | ⟨-, -, hi⟩ | ⟨ho, hs, -⟩⟩ := decodeCommand_cases nmax c _ h
    · cases hi
    · cases hi
    · exact ⟨hr, ho, hs⟩
  · rintro ⟨hr, ho, hs⟩
    simp [decodeCommand, hr, ho, hs, opReset, opStep, opRun]

/-- A command decodes exactly when it decodes to a RESET, to STEP or to RUN. -/
theorem exists_decodeCommand_iff_rows (nmax : Nat) (c : Command) :
    (∃ i, decodeCommand nmax c = .ok i) ↔
      (∃ x y b, decodeCommand nmax c = .ok (.reset x y b)) ∨ decodeCommand nmax c = .ok .step ∨
        decodeCommand nmax c = .ok .run := by
  constructor
  · rintro ⟨i, h⟩
    obtain ⟨-, ⟨-, rfl⟩ | ⟨-, -, rfl⟩ | ⟨-, -, rfl⟩⟩ := decodeCommand_cases nmax c i h
    · exact .inl ⟨_, _, _, h⟩
    · exact .inr (.inl h)
    · exact .inr (.inr h)
  · rintro (⟨x, y, b, h⟩ | h | h) <;> exact ⟨_, h⟩

theorem exists_decodeCommand_iff_mem_legalWords (nmax : Nat) (c : Command) :
    (∃ i, decodeCommand nmax c = .ok i) ↔
      c.cmd_word ∈ [0x01#8, 0x11#8, 0x21#8, 0x31#8, 0x41#8, 0x51#8, 0x61#8, 0x71#8, 0x02#8, 0x03#8] := by
  rw [exists_decodeCommand_iff_rows, mem_legalWords_iff_rows, decodeCommand_reset_iff, decodeCommand_step_iff,
    decodeCommand_run_iff]

end Sys2Proof

namespace Sys2Proof.Machine

/-! ## The assembler's words -/

/-- The word of an assembled RESET depends only on which fields stand in the line, never on their integers. -/
theorem asmReset_cmd_word (nmax : Nat) (x y bits : Option Int) :
    (asmReset nmax x y bits).cmd_word =
      CmdWord.pack ((BitVec.ofBool bits.isSome ++ BitVec.ofBool y.isSome) ++ BitVec.ofBool x.isSome) opReset := by
  simp only [asmReset, encodeReset, selOf, Option.isSome_map]

theorem asmReset_all_cmd_word (nmax : Nat) (x y bits : Int) :
    (asmReset nmax (some x) (some y) (some bits)).cmd_word = 0x71#8 := by
  rw [asmReset_cmd_word, Option.isSome_some, Option.isSome_some, Option.isSome_some]
  decide

theorem asmReset_bits_cmd_word (nmax : Nat) (bits : Int) : (asmReset nmax none none (some bits)).cmd_word = 0x41#8 := by
  rw [asmReset_cmd_word, Option.isSome_some, Option.isSome_none]
  decide

theorem asmReset_none_cmd_word (nmax : Nat) : (asmReset nmax none none none).cmd_word = 0x01#8 :=
  (asmReset_cmd_word ..).trans (by decide)

theorem encodeBare_opRun_cmd_word : (encodeBare opRun).cmd_word = 0x03#8 := by decide

/-! ## The obligations -/

/-- Settles O39: each row by its fields, and the legal words as the union of the three rows. -/
theorem legalWordsExactly : Obligations.LegalWordsExactly := by
  unfold Obligations.LegalWordsExactly
  exact fun nmax c => ⟨exists_decodeCommand_iff_mem_legalWords nmax c, decodeCommand_reset_iff nmax c,
    decodeCommand_step_iff nmax c, decodeCommand_run_iff nmax c⟩

/-- Settles O45: the expansions are `assemble`'s own equations; the words are those of `asmReset` and of RUN. -/
theorem pseudoInstructionsExpand : Obligations.PseudoInstructionsExpand := by
  unfold Obligations.PseudoInstructionsExpand
  intro nmax x y bits
  refine ⟨rfl, rfl, rfl, rfl, ?_⟩
  simp only [assemble, List.map_cons, List.map_nil, asmReset_all_cmd_word, asmReset_bits_cmd_word,
    asmReset_none_cmd_word, encodeBare_opRun_cmd_word, and_self]

end Sys2Proof.Machine
end

section
/-! The datapath's values (40_datapath.md R91 to R103): the signed reading of a pattern by its range, its residue and its
sign, the top bit of the combined product, and the obligations of the family that follow from them. -/

namespace Sys2Proof.Machine

/-! ## The signed reading of a pattern -/

theorem fromTwosComplement_neg_iff (p w : Nat) (hw : 1 ≤ w) (hp : p < 2 ^ w) :
    fromTwosComplement p w < 0 ↔ p.testBit (w - 1) = true := by
  rw [fromTwosComplement_eq p w hw hp, testBit_top p w hw hp, decide_eq_true_iff]
  split <;> omega

theorem fromTwosComplement_range (p w : Nat) (hw : 1 ≤ w) (hp : p < 2 ^ w) :
    -2 ^ (w - 1) ≤ fromTwosComplement p w ∧ fromTwosComplement p w ≤ 2 ^ (w - 1) - 1 := by
  rw [fromTwosComplement_eq p w hw hp]
  obtain ⟨H, -, hH, hW⟩ := pow_half w hw
  have hHi : (2 : Int) ^ (w - 1) = H := mod_cast hH
  rw [hHi, hH, hW]
  rw [hW] at hp
  split <;> omega

/-- Whichever way the top bit is read, the residue mod `2^w` is the pattern's. -/
theorem fromTwosComplement_emod (p w : Nat) : fromTwosComplement p w % 2 ^ w = (p : Int) % 2 ^ w := by
  unfold fromTwosComplement
  split
  · rw [Nat.cast_pow, Nat.cast_ofNat, Int.sub_emod_right]
  · rfl

/-- Two integers of the signed range of width `w` with the same residue mod `2^w` are equal. -/
theorem eq_of_signed_range_of_emod_eq {r v : Int} {w : Nat} (hw : 1 ≤ w)
    (hr : -2 ^ (w - 1) ≤ r ∧ r ≤ 2 ^ (w - 1) - 1) (hv : -2 ^ (w - 1) ≤ v ∧ v ≤ 2 ^ (w - 1) - 1)
    (h : r % 2 ^ w = v % 2 ^ w) : r = v := by
  have hW : (2 : Int) ^ w = 2 * 2 ^ (w - 1) := (mul_pow_sub_one (by omega) 2).symm
  have hdvd : (2 : Int) ^ w ∣ r - v := Int.ModEq.dvd h.symm
  have habs : |r - v| < 2 ^ w := abs_lt.2 (by omega)
  exact sub_eq_zero.1 (Int.eq_zero_of_abs_lt_dvd hdvd habs)

theorem toTwosComplement_emod (v : Int) (w : Nat) : (toTwosComplement v w : Int) % 2 ^ w = v % 2 ^ w := by
  rw [toTwosComplement_cast, Nat.cast_pow, Nat.cast_ofNat, Int.emod_emod_of_dvd _ dvd_rfl]

/-! ## The combined product -/

/-- The top bit of `{A, Q}` is the top bit of A. -/
theorem ProductU_testBit_top (A Q n : Nat) (hn : 1 ≤ n) (hQ : Q < 2 ^ n) :
    (ProductU A Q n).testBit (2 * n - 1) = A.testBit (n - 1) := by
  rw [ProductU, Nat.mul_comm, Nat.testBit_two_pow_mul_add A hQ, if_neg (by omega)]
  congr 1
  omega

/-! ## The obligations -/

/-- Settles O21: the reading of a `b`-bit pattern is in range and keeps the residue, and only `v` itself can be both. -/
theorem twosComplementRoundTrip : Obligations.TwosComplementRoundTrip := by
  unfold Obligations.TwosComplementRoundTrip
  intro v b hb r
  have hrange := fromTwosComplement_range _ b hb (toTwosComplement_lt v b)
  have hmod := (fromTwosComplement_emod (toTwosComplement v b) b).trans (toTwosComplement_emod v b)
  exact ⟨hrange.1, hrange.2, hmod, fun hlo hhi => eq_of_signed_range_of_emod_eq hb hrange ⟨hlo, hhi⟩ hmod⟩

/-- Settles O25: adder and subtractor end in a residue mod `2^n`; the shift by its
arithmetic form, `shift_arith`. -/
theorem arithmeticClosure : Obligations.ArithmeticClosure := by
  unfold Obligations.ArithmeticClosure
  intro A B r n hn hA hQ
  have hpos : 0 < 2 ^ n := Nat.two_pow_pos n
  exact ⟨Nat.mod_lt _ hpos, Nat.mod_lt _ hpos, shift_A_lt r n hn hA hQ, shift_Q_lt r n hn hA hQ⟩

/-- Settles O26: the product is a pattern of width 2n, so its signed reading has that width's range and top bit. -/
theorem productViews : Obligations.ProductViews := by
  unfold Obligations.ProductViews
  intro A Q n hn hA hQ
  have hlt := ProductU_lt A Q n hA hQ
  have hw : 1 ≤ 2 * n := by omega
  obtain ⟨hlo, hhi⟩ := fromTwosComplement_range _ _ hw hlt
  have hsign := fromTwosComplement_neg_iff _ _ hw hlt
  rw [ProductU_testBit_top A Q n hn hQ] at hsign
  exact ⟨rfl, Nat.le_sub_one_of_lt hlt, rfl, hlo, hhi, hsign⟩

end Sys2Proof.Machine
end

section
/-! The host's commands (41_engine.md): RESET, STEP and RUN by their checks, repeated STEPs, the STEP snapshot, the while
loop of RUN, and what a transition does to RUNNING and DONE. -/

namespace Sys2Proof.Machine

/-! ## RESET by its checks (41_engine.md R113 to R115) -/

section Reset

variable (x y : Option Nat) (bits : Option BitsBus) (s : State)

theorem exec_reset_of_unconfigured (hc : s.cfg_valid = false) (hall : ¬ allSupplied x y bits = true) :
    exec (.reset x y bits) s = .next (respond .NOT_CONFIGURED s) :=
  if_pos ⟨hc, Bool.eq_false_of_not_eq_true hall⟩

variable (hcfg : s.cfg_valid = true ∨ allSupplied x y bits = true)
include hcfg

/-- The first check of RESET passes. -/
theorem reset_configured_check : ¬ (s.cfg_valid = false ∧ allSupplied x y bits = false) := by
  rintro ⟨hc, hall⟩
  simp [hc, hall] at hcfg

theorem exec_reset_of_invalid_bits (hb : ¬ suppliedBitsValid s.nmax bits = true) :
    exec (.reset x y bits) s = .next (respond .INVALID_CONFIGURATION s) :=
  (if_neg (reset_configured_check x y bits s hcfg)).trans (if_pos (Bool.eq_false_of_not_eq_true hb))

theorem exec_reset_of_valid (hb : suppliedBitsValid s.nmax bits = true) :
    exec (.reset x y bits) s = .next (respond .OK (loadConfiguration x y bits s)) :=
  (if_neg (reset_configured_check x y bits s hcfg)).trans (if_neg (by simp [hb]))

/-- The width that a RESET with valid checks loads, supplied or retained, is at least 4. -/
theorem four_le_resolveWidth (h : StateInv s) (hb : suppliedBitsValid s.nmax bits = true) :
    4 ≤ resolveWidth bits s.n := by
  cases bits with
  | none =>
    have hc : s.cfg_valid = true := hcfg.resolve_right (by simp [allSupplied])
    obtain ⟨hmin, -⟩ := h.configured hc
    exact hmin
  | some b =>
    obtain ⟨hmin, -⟩ := (suppliedBitsValid_iff s.nmax (some b)).1 hb b rfl
    exact hmin

/-- A RESET that passed its checks leaves the engine RUNNING: `0 < n`. -/
theorem loadConfiguration_running (h : StateInv s) (hb : suppliedBitsValid s.nmax bits = true) :
    (loadConfiguration x y bits s).running = true := by
  have hn := four_le_resolveWidth x y bits s hcfg h hb
  exact (running_iff _).2 ⟨rfl, by rw [loadConfiguration_count, loadConfiguration_n]; omega⟩

end Reset

/-- A RESET ends with a status other than OK and writes nothing else, or passes both checks and loads. -/
theorem exec_reset_cases (x y : Option Nat) (bits : Option BitsBus) (s : State) :
    (∃ st, st ≠ .OK ∧ exec (.reset x y bits) s = .next (respond st s)) ∨
      ((s.cfg_valid = true ∨ allSupplied x y bits = true) ∧ suppliedBitsValid s.nmax bits = true ∧
        exec (.reset x y bits) s = .next (respond .OK (loadConfiguration x y bits s))) := by
  by_cases hcfg : s.cfg_valid = true ∨ allSupplied x y bits = true
  · by_cases hb : suppliedBitsValid s.nmax bits = true
    · exact .inr ⟨hcfg, hb, exec_reset_of_valid x y bits s hcfg hb⟩
    · exact .inl ⟨.INVALID_CONFIGURATION, by decide, exec_reset_of_invalid_bits x y bits s hcfg hb⟩
  · obtain ⟨hc, hall⟩ := not_or.1 hcfg
    exact .inl ⟨.NOT_CONFIGURED, by decide,
      exec_reset_of_unconfigured x y bits s (Bool.eq_false_of_not_eq_true hc) hall⟩

theorem resolveSource_of_fits (nmax : Nat) (o : Option Nat) (old : Nat) (h : operandFits nmax o = true) :
    resolveSource nmax o old = o.getD old := by
  cases o with
  | none => rfl
  | some v => exact busValue_of_fits nmax v h

theorem resolveWidth_eq_getD (o : Option BitsBus) (old : Nat) : resolveWidth o old = (o.map BitVec.toNat).getD old := by
  cases o <;> rfl

/-- The writes of RESET for operands that fit their buses: M and Q are the low `n` bits of the sources. -/
theorem loadConfiguration_of_wellFormed (x y : Option Nat) (bits : Option BitsBus) (s : State)
    (hwf : (Instr.reset x y bits).wellFormed s.nmax = true) :
    loadConfiguration x y bits s =
      { s with
        n := (bits.map BitVec.toNat).getD s.n
        src_x := x.getD s.src_x
        src_y := y.getD s.src_y
        M := x.getD s.src_x % 2 ^ (bits.map BitVec.toNat).getD s.n
        Q := y.getD s.src_y % 2 ^ (bits.map BitVec.toNat).getD s.n
        A := 0, q1 := false, count := 0, log_len := 0, cfg_valid := true } := by
  obtain ⟨hx, hy⟩ := Bool.and_eq_true_iff.1 hwf
  simp only [loadConfiguration, resolveSource_of_fits _ _ _ hx, resolveSource_of_fits _ _ _ hy, resolveWidth_eq_getD,
    toTwosComplement_natCast]

/-- Settles O5: the two checks of RESET in their order, then its writes. -/
theorem resetCommandSemantics : Obligations.ResetCommandSemantics := by
  unfold Obligations.ResetCommandSemantics
  intro s x y bits hwf
  dsimp only
  rw [← allSupplied_iff, ← suppliedBitsValid_iff]
  refine ⟨fun hc hall => exec_reset_of_unconfigured x y bits s hc hall,
    fun hcfg hb => exec_reset_of_invalid_bits x y bits s hcfg hb, fun hcfg hb => ?_⟩
  rw [exec_reset_of_valid x y bits s hcfg hb, loadConfiguration_of_wellFormed x y bits s hwf]
  rfl

/-! ## STEP by its checks (41_engine.md R120, R121) -/

theorem exec_step_of_unconfigured (s : State) (hc : s.cfg_valid = false) :
    exec .step s = .next (respond .NOT_CONFIGURED s) :=
  if_pos hc

theorem exec_step_of_count_eq_n (s : State) (hc : s.cfg_valid = true) (hn : s.count = s.n) :
    exec .step s = .next (respond .DONE s) :=
  (if_neg (by simp [hc])).trans (if_pos hn)

/-- Settles O10: STEP by its checks; the body is `stepBody` with its definitions written out. -/
theorem stepCommandSemantics : Obligations.StepCommandSemantics := by
  unfold Obligations.StepCommandSemantics
  exact fun s => ⟨exec_step_of_unconfigured s, exec_step_of_count_eq_n s, exec_step_of_count_ne_n s⟩

/-! ## Repeated STEPs (41_engine.md R121, R124) -/

theorem execTimes_succ_of_next (i : Instr) (k : Nat) (s t : State) (h : exec i s = .next t) :
    execTimes i (k + 1) s = execTimes i k t := by
  rw [execTimes, h]

theorem execTimes_step_of_done (k : Nat) (s : State) (hc : s.cfg_valid = true) (hn : s.count = s.n) :
    execTimes .step (k + 1) s = .next (respond .DONE s) := by
  rw [execTimes_succ_of_next _ k _ _ (exec_step_of_count_eq_n s hc hn)]
  induction k with
  | zero => rfl
  | succ k ih =>
    rw [execTimes_succ_of_next _ k _ _ (exec_step_of_count_eq_n (respond .DONE s) hc hn)]
    exact ih

/-- Settles O11: the second STEP in DONE finds the state as the first one did. -/
theorem stepsInDoneChangeNothing : Obligations.StepsInDoneChangeNothing := by
  unfold Obligations.StepsInDoneChangeNothing
  exact fun s k hc hn => execTimes_step_of_done k s hc hn

/-- As many STEPs as the width still allows execute one step body each. -/
theorem execTimes_step_of_count_add_lt (k : Nat) (s : State) (hc : s.cfg_valid = true) (hk : s.count + k < s.n) :
    execTimes .step (k + 1) s = .next (respond .OK (stepBodies (k + 1) s)) := by
  rw [execTimes_succ_of_next _ k _ _ (exec_step_of_count_ne_n s hc (by omega))]
  induction k generalizing s with
  | zero => rfl
  | succ k ih =>
    have hstep := exec_step_of_count_ne_n (respond .OK (stepBody s)) hc
      (by rw [respond_count, respond_n, stepBody_count, stepBody_n]; omega)
    rw [execTimes_succ_of_next _ k _ _ hstep]
    exact ih (stepBody s) hc (by rw [stepBody_count, stepBody_n]; omega)

/-- A STEP ends with a status other than OK and writes nothing else, or executes one step body and ends with OK. -/
theorem exec_step_cases (s : State) :
    (∃ st, st ≠ .OK ∧ exec .step s = .next (respond st s)) ∨ exec .step s = .next (respond .OK (stepBody s)) := by
  cases hc : s.cfg_valid with
  | false => exact .inl ⟨.NOT_CONFIGURED, by decide, exec_step_of_unconfigured s hc⟩
  | true =>
    by_cases hn : s.count = s.n
    · exact .inl ⟨.DONE, by decide, exec_step_of_count_eq_n s hc hn⟩
    · exact .inr (exec_step_of_count_ne_n s hc hn)

/-- Settles O14: `k` STEPs are `k` step bodies; a single STEP by whether it executes one. -/
theorem stepCountLaw : Obligations.StepCountLaw := by
  unfold Obligations.StepCountLaw
  refine ⟨fun s k hc h0 hl hk => ?_, fun s => ?_⟩
  · cases k with
    | zero => exact ⟨s, rfl, h0, hl⟩
    | succ k =>
      refine ⟨_, execTimes_step_of_count_add_lt k s hc (by omega), ?_, ?_⟩
      · rw [respond_count, stepBodies_count, h0, Nat.zero_add]
      · rw [respond_log_len, stepBodies_log_len, hl, Nat.zero_add]
  · obtain ⟨st, hst, he⟩ | he := exec_step_cases s
    · exact ⟨_, he, fun hok => absurd ((Status.code_eq_zero_iff st).1 hok) hst, fun _ => ⟨rfl, rfl⟩⟩
    · exact ⟨_, he, fun _ => ⟨rfl, rfl⟩, fun herr => absurd rfl herr⟩

/-! ## The STEP snapshot (41_engine.md R122) -/

/-- After an executed step the log port gives the appended entry: its index is below NMAX, so it has an address. -/
theorem stepSnapshot_stepBody (st : Status) (s : State) (hc : s.cfg_valid = true) (hl : s.log_len ≤ s.nmax) :
    stepSnapshot (respond st (stepBody s)) = .next (logView s.snapshot (respond st (stepBody s))) := by
  have haddr : logAddress s.nmax s.log_len = s.log_len := logAddress_of_le _ _ hl
  apply readLog_next
  · refine (logRvalid_iff _ _).2 ⟨hc, ?_⟩
    simp [haddr]
  · simp [haddr, Memory.read_write_same]

/-- Settles O13: the appended entry holds the registers that the same step body writes. -/
theorem snapshotEqualsObservationPorts : Obligations.SnapshotEqualsObservationPorts := by
  unfold Obligations.SnapshotEqualsObservationPorts
  intro s h hrun
  obtain ⟨hc, hlt⟩ := (running_iff s).1 hrun
  obtain ⟨-, hn, -⟩ := h.configured hc
  have hl : s.log_len ≤ s.nmax := by rw [h.log_len_eq]; omega
  have hread := fun p => readObs_of_configured p (respond .OK (stepBody s)) hc
  exact ⟨_, _, exec_step_of_count_ne_n s hc hlt.ne, stepSnapshot_stepBody .OK s hc hl, hread .obs_count, rfl,
    hread .obs_A, hread .obs_Q, hread .obs_q1, hread .obs_M, hread .obs_A_s, hread .obs_Q_s, hread .obs_M_s,
    hread .obs_prod_u, hread .obs_prod_s⟩

/-! ## RUN by its check (41_engine.md R125, R127) -/

theorem exec_run_of_unconfigured (s : State) (hc : s.cfg_valid = false) :
    exec .run s = .next (respond .NOT_CONFIGURED s) :=
  if_pos hc

theorem exec_run_of_configured (s : State) (hc : s.cfg_valid = true) : exec .run s = .next (respond .OK (runLoop s)) :=
  if_neg (by simp [hc])

/-- The log port does not read the response register. -/
theorem readLogUpTo_respond (st : Status) (s : State) (k : Nat) : readLogUpTo (respond st s) k = readLogUpTo s k := by
  induction k with
  | zero => rfl
  | succ k ih =>
    have hread : readLog k (respond st s) = readLog k s := rfl
    rw [readLogUpTo, readLogUpTo, ih, hread]

theorem runResult_respond (st : Status) (s : State) : runResult (respond st s) = runResult s := by
  rw [runResult, runResult, respond_n, readLogUpTo_respond]
  rfl

/-- Settles O15: by the check of RUN and the two equations of its loop. -/
theorem runIsTheWhileLoop : Obligations.RunIsTheWhileLoop := by
  unfold Obligations.RunIsTheWhileLoop
  intro s
  refine ⟨exec_run_of_unconfigured s, fun hc hlt => ?_, fun hc hlt => ⟨?_, runResult_respond .OK s⟩, ?_⟩
  · rw [exec_run_of_configured s hc, exec_run_of_configured (stepBody s) hc, runLoop_running s hlt]
  · rw [exec_run_of_configured s hc, runLoop_finished s hlt]
    rfl
  · cases hc : s.cfg_valid with
    | false => exact ⟨_, exec_run_of_unconfigured s hc, (by decide : Status.code .NOT_CONFIGURED ≠ 1#3)⟩
    | true => exact ⟨_, exec_run_of_configured s hc, (by decide : Status.code .OK ≠ 1#3)⟩

/-! ## RUNNING and DONE (41_engine.md R110) -/

/-- The two states of a configured engine exclude each other. -/
theorem done_eq_false_of_running (s : State) (h : s.running = true) : s.done = false := by
  obtain ⟨-, hlt⟩ := (running_iff s).1 h
  exact Bool.eq_false_of_not_eq_true fun hd => by
    obtain ⟨-, heq⟩ := (done_iff s).1 hd
    omega

/-- A configured state of the invariant is in one of them. -/
theorem running_or_done (s : State) (h : StateInv s) (hc : s.cfg_valid = true) : s.running = true ∨ s.done = true := by
  obtain ⟨-, -, -, -, -, hle⟩ := h.configured hc
  rcases hle.lt_or_eq with hlt | heq
  · exact .inl ((running_iff s).2 ⟨hc, hlt⟩)
  · exact .inr ((done_iff s).2 ⟨hc, heq⟩)

theorem running_eq_false_of_unconfigured (s : State) (hc : s.cfg_valid = false) : s.running = false := by
  simp [State.running, hc]

theorem done_eq_false_of_unconfigured (s : State) (hc : s.cfg_valid = false) : s.done = false := by
  simp [State.done, hc]

/-- In phase RUN_LOOP the engine is RUNNING (41_engine.md R130, state L). -/
theorem running_of_runLoop_phase (s : State) (h : StateInv s) (hp : s.phase = .RUN_LOOP) : s.running = true := by
  refine (running_iff s).2 ⟨Bool.of_not_eq_false fun hc => ?_, h.busy_running hp⟩
  obtain ⟨-, hidle⟩ := h.unconfigured hc
  rw [hp] at hidle
  cases hidle

@[simp] theorem runEdge_n (s : State) : (runEdge s).n = s.n := by unfold runEdge; dsimp only; split <;> rfl

@[simp] theorem runEdge_count (s : State) : (runEdge s).count = s.count + 1 := by
  unfold runEdge; dsimp only; split <;> rfl

/-- What an instruction does to DONE: nothing; or it advances a RUNNING engine; or it is a RESET that ends with OK, which
leaves the engine RUNNING. -/
theorem exec_done_cases (i : Instr) (s t : State) (h : StateInv s) (ht : exec i s = .next t) :
    t.done = s.done ∨
      (s.running = true ∧ t.n = s.n ∧ s.count < t.count) ∨
      (∃ x y bits, i = .reset x y bits ∧ (s.cfg_valid = true ∨ allSupplied x y bits = true) ∧
        suppliedBitsValid s.nmax bits = true ∧ t.done = false) := by
  obtain ⟨u, hu, hcases⟩ := exec_cases i s
  obtain rfl : t = u := by rw [ht] at hu; exact Host.Outcome.next.inj hu
  rcases hcases with ⟨-, st, -, -, rfl⟩ | ⟨x, y, bits, hi, hcfg, hb, rfl⟩ | ⟨-, hc, hne, rfl⟩ | ⟨-, hc, rfl⟩ | ⟨act, -, rfl⟩
  · exact .inl rfl
  · exact .inr (.inr ⟨x, y, bits, hi, hcfg, hb,
      done_eq_false_of_running _ (loadConfiguration_running x y bits s hcfg h hb)⟩)
  · have hrun : s.running = true :=
      (running_or_done s h hc).resolve_right fun hd => hne ((done_iff s).1 hd).2
    exact .inr (.inl ⟨hrun, rfl, Nat.lt_succ_self s.count⟩)
  · by_cases hlt : s.count < s.n
    · exact .inr (.inl ⟨(running_iff s).2 ⟨hc, hlt⟩, stepBodies_n _ s, by
        rw [respond_count, runLoop, stepBodies_count]; omega⟩)
    · exact .inl (by rw [runLoop_finished s hlt]; rfl)
  · exact .inl rfl

/-- What a transition does to DONE: nothing; or it advances a RUNNING engine; or it is a RESET that ends with OK or the
hardware reset, and the engine is not in DONE after it. -/
theorem step_done_cases (s t : State) (h : StateInv s) (ht : step s = .next t) :
    t.done = s.done ∨
      (s.running = true ∧ t.n = s.n ∧ s.count < t.count) ∨
      ((nextIsSuccessfulReset s ∨ nextIsHardwareReset s) ∧ t.done = false) := by
  rcases step_cases s with ⟨-, l, hs⟩ | ⟨rest, hh, hs⟩ | ⟨c, rest, hp, hh, hs⟩ | ⟨hp, l, hs⟩ <;> rw [hs] at ht
  · cases ht
    exact .inl rfl
  · cases ht
    exact .inr (.inr ⟨.inr ⟨rest, hh⟩, rfl⟩)
  · rcases acceptCommand_cases c { s with host := rest } with ⟨i, hd, -, ha⟩ | ⟨e, -, ha⟩ <;> rw [ha] at ht
    · rcases exec_done_cases i _ t (StateInv_host s rest h) ht with hsame | hadv | ⟨x, y, bits, rfl, hcfg, hb, hdone⟩
      · exact .inl hsame
      · exact .inr (.inl hadv)
      · exact .inr (.inr ⟨.inl ⟨c, rest, x, y, bits, hp, hh, hd, hcfg, hb⟩, hdone⟩)
    · cases ht
      exact .inl rfl
  · cases ht
    exact .inr (.inl ⟨running_of_runLoop_phase s h hp, runEdge_n _, by rw [runEdge_count]; exact Nat.lt_succ_self s.count⟩)

/-- Settles O38: the two states by their definitions, RESET by its status, entering and leaving DONE by
`step_done_cases`. -/
theorem engineStates : Obligations.EngineStates := by
  unfold Obligations.EngineStates
  refine ⟨fun s => ⟨fun hc => ?_, fun hc => ?_⟩, fun s h hc => ?_, fun s x y bits h => ?_, fun s t h ht => ?_⟩
  · rw [running_iff, done_iff]
    exact ⟨and_iff_right hc, and_iff_right hc⟩
  · exact ⟨running_eq_false_of_unconfigured s hc, done_eq_false_of_unconfigured s hc⟩
  · exact ⟨fun hr => by simp [done_eq_false_of_running s hr], (running_or_done s h hc).resolve_right⟩
  · obtain ⟨st, hst, he⟩ | ⟨hcfg, hb, he⟩ := exec_reset_cases x y bits s
    · exact ⟨_, he, fun hok => absurd ((Status.code_eq_zero_iff st).1 hok) hst⟩
    · have hrun := loadConfiguration_running x y bits s hcfg h hb
      exact ⟨_, he, fun _ => ⟨hrun, done_eq_false_of_running _ hrun, rfl⟩⟩
  · rcases step_done_cases s t h ht with hsame | ⟨hrun, hn, hlt⟩ | ⟨hreset, hdone⟩
    · exact ⟨fun hs hd => by simp [hsame, hs] at hd, fun hs hd => by simp [hsame, hs] at hd⟩
    · refine ⟨fun _ hd => ⟨hrun, hn, hlt, ((done_iff t).1 hd).2⟩, fun hd => ?_⟩
      simp [done_eq_false_of_running s hrun] at hd
    · exact ⟨fun _ hd => by simp [hdone] at hd, fun _ _ => hreset⟩

end Sys2Proof.Machine
end

section
/-! The statuses of the command port (60_exceptions.md R140 to R147): an illegal word, what a command with a status other
than OK leaves unchanged, and the order of the checks. -/

namespace Sys2Proof

theorem legalWord_iff_rows : ∀ w : CmdWord,
    legalWord w = true ↔ w &&& 0x8F#8 = 0x01#8 ∨ w &&& 0xFF#8 = 0x02#8 ∨ w &&& 0xFF#8 = 0x03#8 := by decide

@[simp] theorem selected_isSome {α : Type} (supplied : Bool) (v : α) : (selected supplied v).isSome = supplied := by
  cases supplied <;> rfl

/-- Of the RESET words 0x71 alone selects all three operands (30_encoding.md R70). -/
theorem resetWord_all_selected_iff : ∀ w : CmdWord, w &&& 0x8F#8 = 0x01#8 →
    ((w.sel.getLsbD 0 = true ∧ w.sel.getLsbD 1 = true ∧ w.sel.getLsbD 2 = true) ↔ w = 0x71#8) := by decide

/-- Bit 2 of `sel` is bit 6 of the word (30_encoding.md R68). -/
theorem sel_getLsbD_two : ∀ w : CmdWord, w.sel.getLsbD 2 = w.getLsbD 6 := by decide

/-- `op` of a RESET word is 1, and the word is not that of STEP. -/
theorem resetWord_op : ∀ w : CmdWord, w &&& 0x8F#8 = 0x01#8 → w.extractLsb' 0 4 = 1#4 ∧ w ≠ 0x02#8 := by decide

theorem stepRow_iff_eq : ∀ w : CmdWord, w &&& 0xFF#8 = 0x02#8 ↔ w = 0x02#8 := by decide

theorem runRow_iff_eq : ∀ w : CmdWord, w &&& 0xFF#8 = 0x03#8 ↔ w = 0x03#8 := by decide

theorem decodeCommand_of_resetRow (nmax : Nat) (c : Command) (h : c.cmd_word &&& 0x8F#8 = 0x01#8) :
    decodeCommand nmax c =
      .ok (.reset (selected (c.cmd_word.sel.getLsbD 0) (busValue nmax c.cmd_x))
        (selected (c.cmd_word.sel.getLsbD 1) (busValue nmax c.cmd_y)) (selected (c.cmd_word.sel.getLsbD 2) c.cmd_bits)) := by
  obtain ⟨x, y, b, hd⟩ := (decodeCommand_reset_iff nmax c).2 h
  obtain ⟨-, ⟨-, hi⟩ | ⟨-, -, hi⟩ | ⟨-, -, hi⟩⟩ := decodeCommand_cases nmax c _ hd
  · rw [hd, hi]
  · cases hi
  · cases hi

end Sys2Proof

namespace Sys2Proof.Machine

/-! ## Accepting a word -/

theorem acceptCommand_of_decode (c : Command) (s : State) (i : Instr) (h : decodeCommand s.nmax c = .ok i) :
    acceptCommand c s = exec i s := by
  rw [acceptCommand, h]

/-- A word outside the ten legal ones decodes to nothing and ends with ILLEGAL_COMMAND. -/
theorem acceptCommand_of_illegal (c : Command) (s : State)
    (h : c.cmd_word ∉ [0x01#8, 0x11#8, 0x21#8, 0x31#8, 0x41#8, 0x51#8, 0x61#8, 0x71#8, 0x02#8, 0x03#8]) :
    acceptCommand c s = .next (respond .ILLEGAL_COMMAND s) := by
  obtain ⟨i, hd, -⟩ | ⟨-, -, ha⟩ := acceptCommand_cases c s
  · exact absurd ((exists_decodeCommand_iff_mem_legalWords s.nmax c).1 ⟨i, hd⟩) h
  · exact ha

/-- Settles O40: the word is taken from the queue and accepted; it decodes to nothing. -/
theorem illegalWordsAnswerIllegalCommand : Obligations.IllegalWordsAnswerIllegalCommand := by
  unfold Obligations.IllegalWordsAnswerIllegalCommand
  intro s c rest hp hh hw
  calc step s = acceptCommand c { s with host := rest } := step_idle_input s (.command c) rest hp hh
    _ = .next (respond .ILLEGAL_COMMAND { s with host := rest }) := acceptCommand_of_illegal c _ hw

/-! ## What an accepted command leaves unchanged -/

/-- A command ends with a status; a status other than OK means that nothing else was written (60_exceptions.md R146), and
no command changes the phase or the host's queue. -/
theorem exec_command_responds (i : Instr) (s : State) (hi : isCommand i = true) :
    ∃ st u, exec i s = .next (respond st u) ∧ (st ≠ .OK → u = s) ∧ u.phase = s.phase ∧ u.host = s.host := by
  obtain ⟨t, ht, hcases⟩ := exec_cases i s
  rcases hcases with ⟨-, st, -, -, rfl⟩ | ⟨x, y, bits, -, -, -, rfl⟩ | ⟨-, -, -, rfl⟩ | ⟨-, -, rfl⟩ | ⟨act, rfl, -⟩
  · exact ⟨st, s, ht, fun _ => rfl, rfl, rfl⟩
  · exact ⟨.OK, _, ht, fun h => absurd rfl h, rfl, rfl⟩
  · exact ⟨.OK, _, ht, fun h => absurd rfl h, rfl, rfl⟩
  · exact ⟨.OK, _, ht, fun h => absurd rfl h, stepBodies_phase _ s, stepBodies_host _ s⟩
  · cases act <;> cases hi

theorem acceptCommand_responds (c : Command) (s : State) :
    ∃ st u, acceptCommand c s = .next (respond st u) ∧ (st ≠ .OK → u = s) ∧ u.phase = s.phase ∧ u.host = s.host := by
  obtain ⟨i, -, hi, ha⟩ | ⟨-, -, ha⟩ := acceptCommand_cases c s
  · rw [ha]
    exact exec_command_responds i s hi
  · exact ⟨.ILLEGAL_COMMAND, s, ha, fun _ => rfl, rfl, rfl⟩

/-- Settles O35: the status code 0 is that of OK alone. -/
theorem errorStatusesWriteNothing : Obligations.ErrorStatusesWriteNothing := by
  unfold Obligations.ErrorStatusesWriteNothing
  intro s c
  obtain ⟨st, u, ha, hu, -, -⟩ := acceptCommand_responds c s
  refine ⟨_, ha, rfl, fun herr => ?_⟩
  rw [hu fun hok => herr ((Status.code_eq_zero_iff st).2 hok)]
  rfl

/-- With nothing more presented the response falls after the command that was accepted. -/
theorem step_after_acceptCommand (c : Command) (s t : State) (ha : acceptCommand c s = .next t) (hp : s.phase = .IDLE)
    (hh : s.host = []) : ∃ u, step t = .next u ∧ u.rsp_valid = false := by
  obtain ⟨st, u, hr, -, hphase, hhost⟩ := acceptCommand_responds c s
  obtain rfl : t = respond st u := by rw [ha] at hr; exact Host.Outcome.next.inj hr
  exact ⟨_, step_idle_empty _ (hphase.trans hp) (hhost.trans hh), rfl⟩

/-! ## The order of the checks (60_exceptions.md R147) -/

theorem exec_reset_status (x y : Option Nat) (bits : Option BitsBus) (s : State) :
    ∃ t, exec (.reset x y bits) s = .next t ∧
      t.rsp_status =
        if s.cfg_valid = false ∧ ¬ allSupplied x y bits = true then 3#3
        else if ¬ suppliedBitsValid s.nmax bits = true then 2#3
        else 0#3 := by
  by_cases hcfg : s.cfg_valid = false ∧ ¬ allSupplied x y bits = true
  · obtain ⟨hc, hall⟩ := hcfg
    exact ⟨_, exec_reset_of_unconfigured x y bits s hc hall, (if_pos ⟨hc, hall⟩).symm⟩
  · have hpass : s.cfg_valid = true ∨ allSupplied x y bits = true := by
      simpa only [not_and_or, not_not, Bool.not_eq_false] using hcfg
    rw [if_neg hcfg]
    by_cases hb : suppliedBitsValid s.nmax bits = true
    · exact ⟨_, exec_reset_of_valid x y bits s hpass hb, (if_neg (not_not.2 hb)).symm⟩
    · exact ⟨_, exec_reset_of_invalid_bits x y bits s hpass hb, (if_pos hb).symm⟩

theorem exec_step_status (s : State) :
    ∃ t, exec .step s = .next t ∧
      t.rsp_status = if s.cfg_valid = false then 3#3 else if s.count = s.n then 1#3 else 0#3 := by
  cases hc : s.cfg_valid with
  | false => exact ⟨_, exec_step_of_unconfigured s hc, rfl⟩
  | true =>
    by_cases hn : s.count = s.n
    · exact ⟨_, exec_step_of_count_eq_n s hc hn, (if_pos hn).symm⟩
    · exact ⟨_, exec_step_of_count_ne_n s hc hn, (if_neg hn).symm⟩

theorem exec_run_status (s : State) :
    ∃ t, exec .run s = .next t ∧ t.rsp_status = if s.cfg_valid = false then 3#3 else 0#3 := by
  cases hc : s.cfg_valid with
  | false => exact ⟨_, exec_run_of_unconfigured s hc, rfl⟩
  | true => exact ⟨_, exec_run_of_configured s hc, rfl⟩

theorem suppliedBitsValid_selected (nmax : Nat) (supplied : Bool) (b : BitsBus) :
    suppliedBitsValid nmax (selected supplied b) = true ↔ (supplied = true → 4 ≤ b.toNat ∧ b.toNat ≤ nmax) := by
  cases supplied <;> simp [suppliedBitsValid_iff, selected]

/-- The checks of RESET in terms of the presented word and width. -/
theorem acceptCommand_reset_status (c : Command) (s : State) (hw : c.cmd_word &&& 0x8F#8 = 0x01#8) :
    ∃ t, acceptCommand c s = .next t ∧
      t.rsp_status =
        if s.cfg_valid = false ∧ c.cmd_word ≠ 0x71#8 then 3#3
        else if c.cmd_word.getLsbD 6 = true ∧ ¬ (4 ≤ c.cmd_bits.toNat ∧ c.cmd_bits.toNat ≤ s.nmax) then 2#3
        else 0#3 := by
  rw [acceptCommand_of_decode c s _ (decodeCommand_of_resetRow s.nmax c hw)]
  obtain ⟨t, ht, hst⟩ := exec_reset_status (selected (c.cmd_word.sel.getLsbD 0) (busValue s.nmax c.cmd_x))
    (selected (c.cmd_word.sel.getLsbD 1) (busValue s.nmax c.cmd_y)) (selected (c.cmd_word.sel.getLsbD 2) c.cmd_bits) s
  refine ⟨t, ht, ?_⟩
  simp only [allSupplied_iff, selected_isSome, resetWord_all_selected_iff _ hw] at hst
  simpa only [suppliedBitsValid_selected, sel_getLsbD_two, Classical.not_imp] using hst

/-- Every command answers the first status that applies. -/
theorem acceptCommand_status (c : Command) (s : State) :
    ∃ t, acceptCommand c s = .next t ∧
      t.rsp_status =
        if legalWord c.cmd_word = false then 4#3
        else if s.cfg_valid = false ∧ c.cmd_word ≠ 0x71#8 then 3#3
        else if c.cmd_word.extractLsb' 0 4 = 1#4 ∧ c.cmd_word.getLsbD 6 = true ∧
          ¬ (4 ≤ c.cmd_bits.toNat ∧ c.cmd_bits.toNat ≤ s.nmax) then 2#3
        else if c.cmd_word = 0x02#8 ∧ s.count = s.n then 1#3
        else 0#3 := by
  by_cases hl : legalWord c.cmd_word = true
  · rw [if_neg (by simp [hl])]
    rcases (legalWord_iff_rows c.cmd_word).1 hl with hw | hw | hw
    · obtain ⟨hop, hne⟩ := resetWord_op c.cmd_word hw
      simpa [hop, hne] using acceptCommand_reset_status c s hw
    · rw [acceptCommand_of_decode c s .step ((decodeCommand_step_iff s.nmax c).2 hw), (stepRow_iff_eq c.cmd_word).1 hw]
      simpa using exec_step_status s
    · rw [acceptCommand_of_decode c s .run ((decodeCommand_run_iff s.nmax c).2 hw), (runRow_iff_eq c.cmd_word).1 hw]
      simpa using exec_run_status s
  · have hill := acceptCommand_of_illegal c s (by rwa [mem_legalWords_iff_rows, ← legalWord_iff_rows])
    exact ⟨_, hill, (if_pos (Bool.eq_false_of_not_eq_true hl)).symm⟩

/-- Settles O36: by `acceptCommand_status`, and the response falls at the next transition. -/
theorem statusPriority : Obligations.StatusPriority := by
  unfold Obligations.StatusPriority
  intro s c
  obtain ⟨t, ha, hst⟩ := acceptCommand_status c s
  exact ⟨t, ha, hst, step_after_acceptCommand c s t ha⟩

end Sys2Proof.Machine
end

section
/-! The hardware reset and the clock edge (70_reset_and_hazards.md R165, R171, R172): what an edge does by its pins, what
is accepted at it, and what a RUN in progress does until it ends or is aborted. -/

namespace Sys2Proof.Machine

/-! ## What is accepted at an edge -/

theorem cmdReady_iff (p : Pins) (s : State) : cmdReady p s = true ↔ p.rst_n = true ∧ s.phase = .IDLE := by
  simp only [cmdReady, Bool.and_eq_true, decide_eq_true_eq]

theorem accepts_iff (p : Pins) (s : State) : accepts p s = true ↔ p.cmd_valid = true ∧ cmdReady p s = true :=
  Bool.and_eq_true_iff

theorem accepts_eq_false_of_reset (p : Pins) (s : State) (hr : p.rst_n = false) : accepts p s = false := by
  simp [accepts, cmdReady, hr]

/-! ## An edge by its pins -/

theorem clockEdge_of_reset (p : Pins) (s : State) (hr : p.rst_n = false) : clockEdge p s = .next (hardwareReset s) :=
  if_pos hr

theorem clockEdge_run_loop (p : Pins) (s : State) (hr : p.rst_n = true) (hp : s.phase = .RUN_LOOP) :
    clockEdge p s = .next (runEdge s) := by
  simp [clockEdge, hr, hp]

theorem clockEdge_of_accepts (p : Pins) (s : State) (ha : accepts p s = true) : clockEdge p s = acceptEdge p.cmd s := by
  obtain ⟨hv, hready⟩ := (accepts_iff p s).1 ha
  obtain ⟨hr, hp⟩ := (cmdReady_iff p s).1 hready
  simp [clockEdge, hr, hp, hv]

/-- The accepting edge of anything but a RUN with steps to do is the whole command. -/
theorem acceptEdge_eq_acceptCommand (c : Command) (s : State)
    (h : decodeCommand s.nmax c ≠ .ok .run ∨ s.running = false) : acceptEdge c s = acceptCommand c s := by
  unfold acceptEdge acceptCommand
  split
  · next hd =>
    have hrun : s.running = false := h.resolve_left (not_not.2 hd)
    simp [hd, hrun]
  · next i _ hd => rw [hd]
  · next e hd => rw [hd]

/-! ## One edge of a RUN -/

/-- An edge of a RUN executes one step of it; the RUN goes on, or that step makes `count = n` and the RUN ends with OK. -/
theorem runEdge_executes_step (s : State) :
    (runEdge s).count = s.count + 1 ∧ (runEdge s).regs = boothStep s.n s.M s.regs ∧
      (runEdge s).cfg_valid = s.cfg_valid ∧
      ((runEdge s).phase = .RUN_LOOP ∨
        (runEdge s).count = (runEdge s).n ∧ (runEdge s).rsp_valid = true ∧ (runEdge s).rsp_status = 0#3) := by
  unfold runEdge
  dsimp only
  split
  · next hn => exact ⟨rfl, rfl, rfl, .inr ⟨hn, rfl, rfl⟩⟩
  · exact ⟨rfl, rfl, rfl, .inl rfl⟩

/-- Without a hardware reset a transition in phase RUN_LOOP is an edge of the RUN. -/
theorem step_runEdge (s : State) (hp : s.phase = .RUN_LOOP) (h : ¬ nextIsHardwareReset s) :
    ∃ l, step s = .next (runEdge { s with host := l }) := by
  obtain ⟨l, hl⟩ := stepRunLoop_cases s fun rest hh => h ⟨rest, hh⟩
  exact ⟨l, by rw [step_run_loop s hp, hl]⟩

/-! ## The obligations -/

/-- Settles O2: the hardware reset comes first at both levels; every other transition of a RUN is `runEdge`. -/
theorem hardwareResetAtAnyTime : Obligations.HardwareResetAtAnyTime := by
  unfold Obligations.HardwareResetAtAnyTime
  refine ⟨fun s rest hh => ?_, fun p s hr => ?_, fun s t hp hno ht => ?_, fun p s t hp hr ht => ?_⟩
  · exact ⟨_, step_hardwareReset s rest hh, rfl, rfl, rfl, rfl, rfl, rfl⟩
  · exact ⟨_, clockEdge_of_reset p s hr, accepts_eq_false_of_reset p s hr, rfl, rfl, rfl, rfl, rfl⟩
  · obtain ⟨l, hl⟩ := step_runEdge s hp hno
    obtain rfl : runEdge { s with host := l } = t := Host.Outcome.next.inj (hl.symm.trans ht)
    exact runEdge_executes_step { s with host := l }
  · obtain rfl : runEdge s = t := Host.Outcome.next.inj ((clockEdge_run_loop p s hr hp).symm.trans ht)
    exact runEdge_executes_step s

/-- Settles O56: the accepting edge hands the command to `acceptEdge`, which executes it whole. -/
theorem otherCommandsCompleteAtAcceptance : Obligations.OtherCommandsCompleteAtAcceptance := by
  unfold Obligations.OtherCommandsCompleteAtAcceptance
  intro s p ha h
  rw [clockEdge_of_accepts p s ha, acceptEdge_eq_acceptCommand p.cmd s h]

/-- Settles O58: a presented command that is not accepted waits for a RUN, whose edges do not look at it. -/
theorem readyExactlyWhenIdle : Obligations.ReadyExactlyWhenIdle := by
  unfold Obligations.ReadyExactlyWhenIdle
  intro p s
  refine ⟨cmdReady_iff p s, accepts_iff p s, fun hr hv hna => ?_⟩
  have hp : s.phase = .RUN_LOOP := (phase_cases s).resolve_left fun hidle => by
    simp [(accepts_iff p s).2 ⟨hv, (cmdReady_iff p s).2 ⟨hr, hidle⟩⟩] at hna
  rw [clockEdge_run_loop p s hr hp, clockEdge_run_loop { p with cmd_valid := false } s hr hp]

end Sys2Proof.Machine
end

section
/-! The invariant and the trace along a run (00_scope.md R19, 41_engine.md R129): what an accepted command, a transition
and a clock edge can leave, and that each of them keeps both. -/

namespace Sys2Proof.Machine

/-! ## What can follow -/

/-- The states that accepting a command can leave. -/
theorem acceptCommand_inversion {c : Command} {s t : State} (ht : acceptCommand c s = .next t) :
    (∃ st, st ≠ .OK ∧ t = respond st s) ∨
      (∃ x y bits, decodeCommand s.nmax c = .ok (.reset x y bits) ∧ (s.cfg_valid = true ∨ allSupplied x y bits = true) ∧
        suppliedBitsValid s.nmax bits = true ∧ t = respond .OK (loadConfiguration x y bits s)) ∨
      (s.cfg_valid = true ∧ s.count ≠ s.n ∧ t = respond .OK (stepBody s)) ∨
      (s.cfg_valid = true ∧ t = respond .OK (runLoop s)) := by
  obtain ⟨i, hd, hi, ha⟩ | ⟨-, -, ha⟩ := acceptCommand_cases c s
  · obtain ⟨u, hu, hcases⟩ := exec_cases i s
    obtain rfl : u = t := Host.Outcome.next.inj (hu.symm.trans (ha.symm.trans ht))
    rcases hcases with ⟨-, st, hst, -, rfl⟩ | ⟨x, y, bits, rfl, hcfg, hb, rfl⟩ | ⟨-, hc, hne, rfl⟩ | ⟨-, hc, rfl⟩ | ⟨act, rfl, -⟩
    · exact .inl ⟨st, hst, rfl⟩
    · exact .inr (.inl ⟨x, y, bits, hd, hcfg, hb, rfl⟩)
    · exact .inr (.inr (.inl ⟨hc, hne, rfl⟩))
    · exact .inr (.inr (.inr ⟨hc, rfl⟩))
    · cases act <;> cases hi
  · exact .inl ⟨.ILLEGAL_COMMAND, by decide, Host.Outcome.next.inj (ht.symm.trans ha)⟩

/-- The states that a transition can leave. -/
theorem step_inversion {s t : State} (ht : step s = .next t) :
    (∃ l, t = noResponse { s with host := l }) ∨
      (∃ rest, s.host = .hardwareReset :: rest ∧ t = hardwareReset { s with host := rest }) ∨
      (∃ c rest, s.phase = .IDLE ∧ s.host = .command c :: rest ∧ acceptCommand c { s with host := rest } = .next t) ∨
      (s.phase = .RUN_LOOP ∧ ∃ l, t = runEdge { s with host := l }) := by
  rcases step_cases s with ⟨-, l, hs⟩ | ⟨rest, hh, hs⟩ | ⟨c, rest, hp, hh, hs⟩ | ⟨hp, l, hs⟩ <;> rw [hs] at ht
  · exact .inl ⟨l, (Host.Outcome.next.inj ht).symm⟩
  · exact .inr (.inl ⟨rest, hh, (Host.Outcome.next.inj ht).symm⟩)
  · exact .inr (.inr (.inl ⟨c, rest, hp, hh, ht⟩))
  · exact .inr (.inr (.inr ⟨hp, l, (Host.Outcome.next.inj ht).symm⟩))

theorem clockEdge_of_nothing_presented (p : Pins) (s : State) (hr : p.rst_n = true) (hp : s.phase = .IDLE)
    (hv : p.cmd_valid = false) : clockEdge p s = .next (noResponse s) := by
  simp [clockEdge, hr, hp, hv]

/-- The accepting edge of a RUN with steps to do executes the first of them (70_reset_and_hazards.md R173). -/
theorem clockEdge_of_running_run (p : Pins) (s : State) (ha : accepts p s = true) (hd : decodeCommand s.nmax p.cmd = .ok .run)
    (hrun : s.running = true) : clockEdge p s = .next (runEdge s) := by
  rw [clockEdge_of_accepts p s ha]
  simp [acceptEdge, hd, hrun]

/-- Everything a clock edge can do: the hardware reset, one step of a RUN, nothing, or a whole command. -/
theorem clockEdge_cases (p : Pins) (s : State) :
    (p.rst_n = false ∧ clockEdge p s = .next (hardwareReset s)) ∨
      ((s.phase = .RUN_LOOP ∨ accepts p s = true ∧ decodeCommand s.nmax p.cmd = .ok .run ∧ s.running = true) ∧
        clockEdge p s = .next (runEdge s)) ∨
      (s.phase = .IDLE ∧ p.cmd_valid = false ∧ clockEdge p s = .next (noResponse s)) ∨
      (s.phase = .IDLE ∧ accepts p s = true ∧ clockEdge p s = acceptCommand p.cmd s) := by
  cases hr : p.rst_n with
  | false => exact .inl ⟨rfl, clockEdge_of_reset p s hr⟩
  | true =>
    rcases phase_cases s with hp | hp
    · cases hv : p.cmd_valid with
      | false => exact .inr (.inr (.inl ⟨hp, rfl, clockEdge_of_nothing_presented p s hr hp hv⟩))
      | true =>
        have ha : accepts p s = true := (accepts_iff p s).2 ⟨hv, (cmdReady_iff p s).2 ⟨hr, hp⟩⟩
        by_cases hrun : decodeCommand s.nmax p.cmd = .ok .run ∧ s.running = true
        · obtain ⟨hd, hrun⟩ := hrun
          exact .inr (.inl ⟨.inr ⟨ha, hd, hrun⟩, clockEdge_of_running_run p s ha hd hrun⟩)
        · have hwhole : decodeCommand s.nmax p.cmd ≠ .ok .run ∨ s.running = false := by
            simpa only [not_and_or, Bool.not_eq_true] using hrun
          exact .inr (.inr (.inr ⟨hp, ha, by rw [clockEdge_of_accepts p s ha, acceptEdge_eq_acceptCommand p.cmd s hwhole]⟩))
    · exact .inr (.inl ⟨.inl hp, clockEdge_run_loop p s hr hp⟩)

/-! ## The invariant -/

/-- A STEP that executes starts from a RUNNING state (41_engine.md R120). -/
theorem count_lt_n_of_ne (s : State) (h : StateInv s) (hc : s.cfg_valid = true) (hne : s.count ≠ s.n) : s.count < s.n := by
  obtain ⟨-, -, -, -, -, hle⟩ := h.configured hc
  exact hle.lt_of_ne hne

theorem StateInv_runLoop (s : State) (h : StateInv s) (hc : s.cfg_valid = true) (hp : s.phase = .IDLE) :
    StateInv (runLoop s) := by
  obtain ⟨-, -, -, -, -, hle⟩ := h.configured hc
  exact StateInv_stepBodies _ s h hc (by omega) hp

theorem StateInv_acceptCommand {c : Command} {s t : State} (h : StateInv s) (hp : s.phase = .IDLE)
    (ht : acceptCommand c s = .next t) : StateInv t := by
  rcases acceptCommand_inversion ht with ⟨st, -, rfl⟩ | ⟨x, y, bits, -, hcfg, hb, rfl⟩ | ⟨hc, hne, rfl⟩ | ⟨hc, rfl⟩
  · exact StateInv_respond st s h
  · exact StateInv_respond _ _ (StateInv_loadConfiguration x y bits s h hp hcfg hb)
  · exact StateInv_respond _ _ (StateInv_stepBodies 1 s h hc (count_lt_n_of_ne s h hc hne) hp)
  · exact StateInv_respond _ _ (StateInv_runLoop s h hc hp)

/-- Settles O29: each thing a transition can do keeps the invariant; in RUN_LOOP the engine is RUNNING. -/
theorem invariantKeptByStep : Obligations.InvariantKeptByStep := by
  unfold Obligations.InvariantKeptByStep
  intro s t h ht
  rcases step_inversion ht with ⟨l, rfl⟩ | ⟨rest, -, rfl⟩ | ⟨c, rest, hp, -, ha⟩ | ⟨hp, l, rfl⟩
  · exact StateInv_noResponse _ (StateInv_host s l h)
  · exact StateInv_hardwareReset _ (StateInv_host s rest h)
  · exact StateInv_acceptCommand (StateInv_host s rest h) hp ha
  · obtain ⟨hc, hlt⟩ := (running_iff s).1 (running_of_runLoop_phase s h hp)
    exact StateInv_runEdge _ (StateInv_host s l h) hc hlt

/-! ## The trace -/

theorem Traced_stepBodies (k : Nat) (s : State) (hl : s.log_len = s.count) (h : Traced s) : Traced (stepBodies k s) := by
  induction k generalizing s with
  | zero => exact h
  | succ k ih => exact ih (stepBody s) (congrArg (· + 1) hl) (Traced_stepBody s hl h)

theorem Traced_runEdge (s : State) (hl : s.log_len = s.count) (h : Traced s) : Traced (runEdge s) := by
  unfold runEdge
  dsimp only
  split
  · exact Traced_respond _ _ (Traced_phase _ _ (Traced_stepBody s hl h))
  · exact Traced_noResponse _ (Traced_phase _ _ (Traced_stepBody s hl h))

theorem Traced_acceptCommand {c : Command} {s t : State} (h : Traced s) (hl : s.log_len = s.count)
    (ht : acceptCommand c s = .next t) : Traced t := by
  rcases acceptCommand_inversion ht with ⟨st, -, rfl⟩ | ⟨x, y, bits, -, -, -, rfl⟩ | ⟨-, -, rfl⟩ | ⟨-, rfl⟩
  · exact Traced_respond st s h
  · exact Traced_respond _ _ (Traced_loadConfiguration x y bits s)
  · exact Traced_respond _ _ (Traced_stepBody s hl h)
  · exact Traced_respond _ _ (Traced_stepBodies _ s hl h)

/-- Settles O30: a step body extends the trace by one iteration, RESET begins it anew, the hardware reset ends it. -/
theorem traceKeptByStep : Obligations.TraceKeptByStep := by
  unfold Obligations.TraceKeptByStep
  intro s t h htr ht
  rcases step_inversion ht with ⟨l, rfl⟩ | ⟨rest, -, rfl⟩ | ⟨c, rest, -, -, ha⟩ | ⟨-, l, rfl⟩
  · exact Traced_noResponse _ (Traced_host s l htr)
  · exact Traced_unconfigured _ rfl
  · exact Traced_acceptCommand (Traced_host s rest htr) h.log_len_eq ha
  · exact Traced_runEdge _ h.log_len_eq (Traced_host s l htr)

/-- Settles O31: an edge is the hardware reset, one step of a RUNNING engine, nothing, or a whole command. -/
theorem invariantKeptByClockEdge : Obligations.InvariantKeptByClockEdge := by
  unfold Obligations.InvariantKeptByClockEdge
  intro p s t h htr ht
  rcases clockEdge_cases p s with ⟨-, he⟩ | ⟨hbusy, he⟩ | ⟨-, -, he⟩ | ⟨hp, -, he⟩ <;> rw [he] at ht
  · cases ht
    exact ⟨StateInv_hardwareReset s h, Traced_unconfigured _ rfl⟩
  · cases ht
    have hrun : s.running = true := hbusy.elim (running_of_runLoop_phase s h) (·.2.2)
    obtain ⟨hc, hlt⟩ := (running_iff s).1 hrun
    exact ⟨StateInv_runEdge s h hc hlt, Traced_runEdge s h.log_len_eq htr⟩
  · cases ht
    exact ⟨StateInv_noResponse s h, Traced_noResponse s htr⟩
  · exact ⟨StateInv_acceptCommand h hp ht, Traced_acceptCommand htr h.log_len_eq ht⟩

/-! ## The state after reset -/

/-- The machine of any legal NMAX after power-on: every register holds 0 and the log lists nothing. -/
theorem StateInv_resetFor (nmax : Nat) (h : nmaxLegal nmax = true) : StateInv (State.resetFor nmax) := by
  have hzero : 0 < 2 ^ nmax := Nat.two_pow_pos nmax
  exact
    { nmax_legal := h
      physical := ⟨hzero, hzero, hzero, hzero, hzero, Nat.two_pow_pos bw⟩
      configured := fun hc => nomatch hc
      unconfigured := fun _ => ⟨rfl, rfl⟩
      log_len_eq := rfl
      busy_running := fun hp => nomatch hp
      log_wf := rfl
      log_bounded := fun _ hc => nomatch hc
      log_readable := fun _ hi => absurd hi (Nat.not_lt_zero _)
      status_produced := fun hv => nomatch hv }

/-- Settles O3: by `StateInv_resetFor`, of which `State.reset` is the case of NMAX = 8. -/
theorem resetSatisfiesInvariant : Obligations.ResetSatisfiesInvariant := by
  unfold Obligations.ResetSatisfiesInvariant
  have every : ∀ nmax, nmaxLegal nmax = true → StateInv (State.resetFor nmax) ∧ Traced (State.resetFor nmax) :=
    fun nmax h => ⟨StateInv_resetFor nmax h, Traced_unconfigured _ rfl⟩
  obtain ⟨hinv, htr⟩ := every nmaxBuilt (by decide)
  exact ⟨hinv, htr, every⟩

end Sys2Proof.Machine
end

section
/-! Encoding and decoding are inverse (30_encoding.md sections 2 to 6): the operands by their `sel` bits, the fields of a
word put together again, and the action codes. -/

namespace Sys2Proof

/-! ## The fields of a word -/

theorem append_ofBool_getLsbD : ∀ b2 b1 b0 : Bool,
    ((BitVec.ofBool b2 ++ BitVec.ofBool b1) ++ BitVec.ofBool b0).getLsbD 0 = b0 ∧
    ((BitVec.ofBool b2 ++ BitVec.ofBool b1) ++ BitVec.ofBool b0).getLsbD 1 = b1 ∧
    ((BitVec.ofBool b2 ++ BitVec.ofBool b1) ++ BitVec.ofBool b0).getLsbD 2 = b2 := by decide

/-- Each bit of `sel` says whether its operand is supplied (30_encoding.md R70). -/
theorem selOf_getLsbD (x y : Option Nat) (bits : Option BitsBus) :
    (selOf x y bits).getLsbD 0 = x.isSome ∧ (selOf x y bits).getLsbD 1 = y.isSome ∧
      (selOf x y bits).getLsbD 2 = bits.isSome :=
  append_ofBool_getLsbD bits.isSome y.isSome x.isSome

/-- A `sel` field is its three bits. -/
theorem sel_eq_append_bits : ∀ sel : BitVec 3,
    (BitVec.ofBool (sel.getLsbD 2) ++ BitVec.ofBool (sel.getLsbD 1)) ++ BitVec.ofBool (sel.getLsbD 0) = sel := by decide

theorem pack_fields : ∀ w : CmdWord, w.rsv = false → CmdWord.pack w.sel w.op = w := by decide

/-- `sel` is bits 6:4 of the word (30_encoding.md R68). -/
theorem sel_getLsbD (w : CmdWord) (i : Nat) (hi : i < 3) : w.sel.getLsbD i = w.getLsbD (4 + i) := by
  simp [CmdWord.sel, hi]

theorem getD_selected {α : Type} (supplied : Bool) (v d : α) : (selected supplied v).getD d = if supplied then v else d := by
  cases supplied <;> rfl

/-! ## Decoding what was encoded -/

/-- A fitting operand comes back from its bus. -/
theorem selected_busValue_getD (nmax : Nat) (o : Option Nat) (h : operandFits nmax o = true) :
    selected o.isSome (busValue nmax (o.getD 0)) = o := by
  cases o with
  | none => rfl
  | some v => exact congrArg some (busValue_of_fits nmax v h)

theorem selected_getD (bits : Option BitsBus) : selected bits.isSome (bits.getD 0#16) = bits := by
  cases bits <;> rfl

theorem decodeCommand_encodeReset (nmax : Nat) (x y : Option Nat) (bits : Option BitsBus)
    (hx : operandFits nmax x = true) (hy : operandFits nmax y = true) :
    decodeCommand nmax (encodeReset x y bits) = .ok (.reset x y bits) := by
  obtain ⟨h0, h1, h2⟩ := selOf_getLsbD x y bits
  have hrow : (encodeReset x y bits).cmd_word &&& 0x8F#8 = 0x01#8 :=
    (resetRow_iff_fields _).2 ⟨pack_rsv _ _, pack_op _ _⟩
  rw [decodeCommand_of_resetRow nmax _ hrow]
  simp only [encodeReset, pack_sel, h0, h1, h2, selected_busValue_getD nmax x hx, selected_busValue_getD nmax y hy,
    selected_getD]

@[simp] theorem decodeActionCode_code (a : Action) : decodeActionCode a.code = .ok a := by cases a <;> rfl

theorem decode_action_code (nmax : Nat) (a : Action) : decode nmax (.action a.code) = .ok a.instr := by
  simp [decode]

/-- Settles O42: RESET by its operands' `sel` bits, STEP and RUN by their words, an action by its code. -/
theorem decodeOfEncode : Obligations.DecodeOfEncode := by
  unfold Obligations.DecodeOfEncode
  intro nmax i hwf
  cases i with
  | reset x y bits =>
    obtain ⟨hx, hy⟩ := Bool.and_eq_true_iff.1 hwf
    exact decodeCommand_encodeReset nmax x y bits hx hy
  | step => exact (decodeCommand_step_iff nmax (encodeBare opStep)).2 (by decide)
  | run => exact (decodeCommand_run_iff nmax (encodeBare opRun)).2 (by decide)
  | actNone => exact decode_action_code nmax .none
  | actAdd => exact decode_action_code nmax .add
  | actSubtract => exact decode_action_code nmax .subtract

/-! ## Encoding what was decoded -/

theorem operandFits_selected_busValue (nmax : Nat) (supplied : Bool) (v : Nat) :
    operandFits nmax (selected supplied (busValue nmax v)) = true := by
  cases supplied with
  | false => rfl
  | true => exact busValue_fits nmax v

theorem selOf_selected (sel : BitVec 3) (x y : Nat) (b : BitsBus) :
    selOf (selected (sel.getLsbD 0) x) (selected (sel.getLsbD 1) y) (selected (sel.getLsbD 2) b) = sel := by
  simp only [selOf, selected_isSome, sel_eq_append_bits]

/-- The word of a RESET that was decoded, with the buses that it selects. -/
theorem encodeReset_of_decoded (nmax : Nat) (c : Command) (hr : c.cmd_word.rsv = false) (ho : c.cmd_word.op = opReset) :
    encodeReset (selected (c.cmd_word.sel.getLsbD 0) (busValue nmax c.cmd_x))
        (selected (c.cmd_word.sel.getLsbD 1) (busValue nmax c.cmd_y)) (selected (c.cmd_word.sel.getLsbD 2) c.cmd_bits) =
      { cmd_word := c.cmd_word
        cmd_x := if c.cmd_word.getLsbD 4 then c.cmd_x % 2 ^ nmax else 0
        cmd_y := if c.cmd_word.getLsbD 5 then c.cmd_y % 2 ^ nmax else 0
        cmd_bits := if c.cmd_word.getLsbD 6 then c.cmd_bits else 0#16 } := by
  have hword : CmdWord.pack c.cmd_word.sel opReset = c.cmd_word := by rw [← ho, pack_fields _ hr]
  rw [encodeReset, selOf_selected, hword]
  simp only [getD_selected, sel_getLsbD _ 0 (by decide), sel_getLsbD _ 1 (by decide), sel_getLsbD _ 2 (by decide)]
  rfl

/-- A command that reads no bus has no `sel` bit set. -/
theorem getLsbD_of_sel_eq_zero (w : CmdWord) (h : w.sel = 0#3) :
    w.getLsbD 4 = false ∧ w.getLsbD 5 = false ∧ w.getLsbD 6 = false := by
  have hbit : ∀ i, i < 3 → w.getLsbD (4 + i) = false := fun i hi => by rw [← sel_getLsbD w i hi, h]; simp
  exact ⟨hbit 0 (by decide), hbit 1 (by decide), hbit 2 (by decide)⟩

theorem encodeBare_of_decoded (nmax : Nat) (c : Command) (op : BitVec 4) (hr : c.cmd_word.rsv = false)
    (ho : c.cmd_word.op = op) (hs : c.cmd_word.sel = 0#3) :
    encodeBare op =
      { cmd_word := c.cmd_word
        cmd_x := if c.cmd_word.getLsbD 4 then c.cmd_x % 2 ^ nmax else 0
        cmd_y := if c.cmd_word.getLsbD 5 then c.cmd_y % 2 ^ nmax else 0
        cmd_bits := if c.cmd_word.getLsbD 6 then c.cmd_bits else 0#16 } := by
  obtain ⟨h4, h5, h6⟩ := getLsbD_of_sel_eq_zero c.cmd_word hs
  have hword : CmdWord.pack 0#3 op = c.cmd_word := by rw [← hs, ← ho, pack_fields _ hr]
  rw [h4, h5, h6, encodeBare, hword]
  rfl

theorem code_of_decodeActionCode (code : ActionCode) (a : Action) (h : decodeActionCode code = .ok a) : a.code = code := by
  unfold decodeActionCode at h
  split at h
  · next hc => cases h; exact hc.symm
  · split at h
    · next hc => cases h; exact hc.symm
    · split at h
      · next hc => cases h; exact hc.symm
      · cases h

theorem encode_instr (a : Action) : encode a.instr = .action a.code := by cases a <;> rfl

theorem instr_wellFormed (nmax : Nat) (a : Action) : a.instr.wellFormed nmax = true := by cases a <;> rfl

/-- Settles O43: a word by its fields, an action code by the action it decodes to. -/
theorem encodeOfDecode : Obligations.EncodeOfDecode := by
  unfold Obligations.EncodeOfDecode
  refine ⟨fun nmax c i h => ?_, fun nmax code i h => ?_⟩
  · obtain ⟨hr, ⟨ho, rfl⟩ | ⟨ho, hs, rfl⟩ | ⟨ho, hs, rfl⟩⟩ := decodeCommand_cases nmax c i h
    · have hx := operandFits_selected_busValue nmax (c.cmd_word.sel.getLsbD 0) c.cmd_x
      have hy := operandFits_selected_busValue nmax (c.cmd_word.sel.getLsbD 1) c.cmd_y
      exact ⟨Bool.and_eq_true_iff.2 ⟨hx, hy⟩, congrArg Encoded.command (encodeReset_of_decoded nmax c hr ho)⟩
    · exact ⟨rfl, congrArg Encoded.command (encodeBare_of_decoded nmax c opStep hr ho hs)⟩
    · exact ⟨rfl, congrArg Encoded.command (encodeBare_of_decoded nmax c opRun hr ho hs)⟩
  · rw [decode] at h
    split at h
    · next a hd =>
      cases h
      exact ⟨instr_wellFormed nmax a, by rw [encode_instr, code_of_decodeActionCode code a hd]⟩
    · cases h

/-! ## The buses a word does not read, and words written out -/

theorem selected_congr {α : Type} (supplied : Bool) (v w : α) (h : supplied = true → v = w) :
    selected supplied v = selected supplied w := by
  cases supplied with
  | false => rfl
  | true => exact congrArg some (h rfl)

/-- Settles O41: an operand enters the decoder through its `sel` bit alone, which is bit 4, 5 or 6 of the word. -/
theorem unreadBusesAreIgnored : Obligations.UnreadBusesAreIgnored := by
  unfold Obligations.UnreadBusesAreIgnored
  intro nmax c d hw hx hy hb
  have hsel := sel_getLsbD c.cmd_word
  have hX := selected_congr (c.cmd_word.sel.getLsbD 0) (busValue nmax d.cmd_x) (busValue nmax c.cmd_x)
    fun h => by rw [hx (by rw [← h, hsel 0 (by decide)])]
  have hY := selected_congr (c.cmd_word.sel.getLsbD 1) (busValue nmax d.cmd_y) (busValue nmax c.cmd_y)
    fun h => by rw [hy (by rw [← h, hsel 1 (by decide)])]
  have hB := selected_congr (c.cmd_word.sel.getLsbD 2) d.cmd_bits c.cmd_bits
    fun h => hb (by rw [← h, hsel 2 (by decide)])
  simp only [decodeCommand, hw, hX, hY, hB]

/-- Settles O44: twelve closed words, decoded. -/
theorem writtenOutWordsDecode : Obligations.WrittenOutWordsDecode := by
  unfold Obligations.WrittenOutWordsDecode
  decide

end Sys2Proof
end

section
/-! Booth's multiplication (40_datapath.md R94 to R105): adder, subtractor and shift as arithmetic on the signed double
register, and by induction on the iterations the product that a run leaves there. -/

namespace Sys2Proof.Machine

/-! ## Operand storage (30_encoding.md R72) -/

/-- Settles O8: `2^n` divides `2^NMAX`. -/
theorem storedSourceLosesNothing : Obligations.StoredSourceLosesNothing := by
  unfold Obligations.StoredSourceLosesNothing
  intro v n nmax h
  have hdvd : ((2 ^ n : Nat) : Int) ∣ ((2 ^ nmax : Nat) : Int) := Int.natCast_dvd_natCast.2 (Nat.pow_dvd_pow 2 h)
  rw [toTwosComplement, busPattern, toTwosComplement_cast, Int.emod_emod_of_dvd v hdvd, toTwosComplement]

/-! ## Adder and subtractor (40_datapath.md R93 to R95) -/

/-- `~b + 1` taken from `2^n` leaves `b`: the complement of an `n`-bit number in plain arithmetic. -/
theorem complement_add_one (b n : Nat) (hb : b < 2 ^ n) : ((complement n b + 1 : Nat) : Int) = 2 ^ n - b := by
  have hcast : ((2 ^ n : Nat) : Int) = 2 ^ n := by push_cast; rfl
  rw [← hcast, complement]
  generalize 2 ^ n = W at *
  omega

theorem maskedAdd_emod (a b n : Nat) : (maskedAdd a b n : Int) % 2 ^ n = ((a : Int) + b) % 2 ^ n := by
  rw [maskedAdd]
  push_cast
  exact Int.emod_emod_of_dvd _ dvd_rfl

theorem maskedSub_cast (a b n : Nat) (hb : b < 2 ^ n) : (maskedSub a b n : Int) = ((a : Int) - b) % 2 ^ n := by
  calc (maskedSub a b n : Int) = ((a : Int) + ((complement n b + 1 : Nat) : Int)) % 2 ^ n := by
        rw [maskedSub, Nat.add_mod_mod]; push_cast; rfl
    _ = ((a : Int) - b + 2 ^ n) % 2 ^ n := by rw [complement_add_one b n hb]; congr 1; ring
    _ = ((a : Int) - b) % 2 ^ n := Int.add_emod_right ..

/-- Settles O22: `~b + 1` is `2^n - b`. -/
theorem maskedSubIsModularDifference : Obligations.MaskedSubIsModularDifference := by
  unfold Obligations.MaskedSubIsModularDifference
  exact fun a b n _ hb => maskedSub_cast a b n hb

/-- Inverting the low `n` bits is the complement. -/
theorem xor_ones_eq_complement (b n : Nat) (hb : b < 2 ^ n) : b ^^^ (2 ^ n - 1) = complement n b := by
  apply Nat.eq_of_testBit_eq
  intro i
  rw [complement, Nat.sub_sub, Nat.add_comm 1 b, Nat.testBit_two_pow_sub_succ hb, Nat.testBit_xor, Nat.testBit_two_pow_sub_one]
  by_cases hi : i < n
  · simp [hi]
  · have hbi : b.testBit i = false := Nat.testBit_lt_two_pow (hb.trans_le (Nat.pow_le_pow_right two_pos (not_lt.1 hi)))
    simp [hi, hbi]

/-- Settles O23: without inversion the form is the addition; with it, `~M` and the carry are the negation of M. -/
theorem oneAdderFormAgrees : Obligations.OneAdderFormAgrees := by
  unfold Obligations.OneAdderFormAgrees
  intro A M n _ hM
  constructor
  · simp [adderHardware, maskedAdd]
  · simp only [adderHardware, if_true, xor_ones_eq_complement M n hM, maskedSub, Nat.add_mod_mod, Bool.toNat_true,
      Nat.add_assoc]

/-! ## The signed double register (40_datapath.md R99, R101) -/

/-- The signed product is the signed A above the unsigned Q. -/
theorem ProductS_eq (A Q n : Nat) (hn : 1 ≤ n) (hQ : Q < 2 ^ n) :
    ProductS A Q n = fromTwosComplement A n * 2 ^ n + Q := by
  rw [ProductS, fromTwosComplement, ProductU_testBit_top A Q n hn hQ, fromTwosComplement, ProductU]
  have hpow : (2 : Int) ^ (2 * n) = 2 ^ n * 2 ^ n := by rw [two_mul, pow_add]
  split <;> push_cast
  · rw [hpow]; ring
  · rfl

theorem ProductS_range (A Q n : Nat) (hn : 1 ≤ n) (hA : A < 2 ^ n) (hQ : Q < 2 ^ n) :
    -2 ^ (2 * n - 1) ≤ ProductS A Q n ∧ ProductS A Q n ≤ 2 ^ (2 * n - 1) - 1 :=
  fromTwosComplement_range _ _ (by omega) (ProductU_lt A Q n hA hQ)

theorem ProductS_emod (A Q n : Nat) : ProductS A Q n % 2 ^ (2 * n) = ((A : Int) * 2 ^ n + Q) % 2 ^ (2 * n) := by
  rw [ProductS, fromTwosComplement_emod, ProductU]
  push_cast
  rfl

/-- The arithmetic shift halves the signed A, rounding down. -/
theorem fromTwosComplement_shift_A (r : Regs) (n : Nat) (hn : 1 ≤ n) (hA : r.A < 2 ^ n) (hQ : r.Q < 2 ^ n) :
    fromTwosComplement (shiftRightArithmeticAQ r n).A n = fromTwosComplement r.A n / 2 := by
  have hA' := shift_A_lt r n hn hA hQ
  rw [fromTwosComplement_eq _ n hn hA', fromTwosComplement_eq _ n hn hA, shift_arith r n hn hA hQ]
  obtain ⟨H, -, hH, hW⟩ := pow_half n hn
  rw [hW] at hA
  rw [hH, hW]
  dsimp only
  split <;> split <;> omega

/-- The coupled shift halves the signed double register, rounding down. -/
theorem ProductS_shift (r : Regs) (n : Nat) (hn : 1 ≤ n) (hA : r.A < 2 ^ n) (hQ : r.Q < 2 ^ n) :
    ProductS (shiftRightArithmeticAQ r n).A (shiftRightArithmeticAQ r n).Q n = ProductS r.A r.Q n / 2 := by
  rw [ProductS_eq _ _ n hn (shift_Q_lt r n hn hA hQ), ProductS_eq _ _ n hn hQ, fromTwosComplement_shift_A r n hn hA hQ,
    shift_arith r n hn hA hQ]
  obtain ⟨H, -, hH, hW⟩ := pow_half n hn
  have hWi : (2 : Int) ^ n = 2 * H := mod_cast hW
  have hparity : ((r.A % 2 : Nat) : Int) = fromTwosComplement r.A n % 2 := by
    rw [fromTwosComplement_eq _ n hn hA, hW]
    split <;> omega
  rw [hWi, hH]
  push_cast at hparity ⊢
  rw [hparity]
  generalize fromTwosComplement r.A n = a
  have hsplit : a / 2 * (2 * H) + a % 2 * H = a * H := by
    conv_rhs => rw [← Int.mul_ediv_add_emod a 2]
    ring
  have hdouble : a * (2 * H) = 2 * (a * H) := by ring
  rw [hdouble]
  omega

/-- Settles O24: the halved register has the residue of its own bits. -/
theorem shiftIsSignedHalving : Obligations.ShiftIsSignedHalving := by
  unfold Obligations.ShiftIsSignedHalving
  intro r n hn hA hQ
  dsimp only
  refine ⟨?_, ?_⟩
  · have hlt : ProductU (shiftRightArithmeticAQ r n).A (shiftRightArithmeticAQ r n).Q n < 2 ^ (2 * n) :=
      ProductU_lt _ _ n (shift_A_lt r n hn hA hQ) (shift_Q_lt r n hn hA hQ)
    have hhalf := ProductS_shift r n hn hA hQ
    rw [ProductS, ProductS] at hhalf
    rw [← hhalf, fromTwosComplement_emod, Int.emod_eq_of_lt (by positivity) (mod_cast hlt)]
  · have hbit : r.Q.testBit 0 = (ProductU r.A r.Q n).testBit 0 := by
      rw [ProductU, Nat.mul_comm, Nat.testBit_two_pow_mul_add r.A hQ, if_pos (by omega)]
    exact hbit

end Sys2Proof.Machine
end

section
/-! Booth correctness (40_datapath.md R105): the signed double register after every iteration, and what it holds after the
last one. -/

namespace Sys2Proof.Machine

/-! ## The multiplier bits that an iteration has consumed -/

/-- The value of the low `k` bits of the multiplier pattern, the bit before bit 0 being 0: their unsigned value, less `2^k`
where the last of them, which is what `q1` holds after `k` iterations, is set. -/
def consumedMultiplier (y k : Nat) : Int := ((y % 2 ^ k : Nat) : Int) - ((2 * y).testBit k).toNat * 2 ^ k

@[simp] theorem consumedMultiplier_zero (y : Nat) : consumedMultiplier y 0 = 0 := by
  simp [consumedMultiplier, Nat.mod_one]

theorem testBit_two_mul_succ (y k : Nat) : (2 * y).testBit (k + 1) = y.testBit k := by
  rw [Nat.testBit_succ, Nat.mul_div_cancel_left y two_pos]

/-- The low `k + 1` bits are the low `k` bits and bit `k`. -/
theorem mod_two_pow_succ_eq (y k : Nat) : y % 2 ^ (k + 1) = y % 2 ^ k + 2 ^ k * (y.testBit k).toNat := by
  rw [Nat.mod_pow_succ, Nat.toNat_testBit]

/-- Consuming bit `k` adds the digit `q1 - Q[0]` of the Booth recoding at weight `2^k`. -/
theorem consumedMultiplier_succ (y k : Nat) :
    consumedMultiplier y (k + 1) =
      consumedMultiplier y k + (((2 * y).testBit k).toNat - (y.testBit k).toNat : Int) * 2 ^ k := by
  rw [consumedMultiplier, consumedMultiplier, testBit_two_mul_succ, mod_two_pow_succ_eq]
  push_cast
  ring

theorem consumedMultiplier_succ_range (y k : Nat) :
    -2 ^ k ≤ consumedMultiplier y (k + 1) ∧ consumedMultiplier y (k + 1) ≤ 2 ^ k - 1 := by
  have hlt : ((y % 2 ^ k : Nat) : Int) < 2 ^ k := mod_cast Nat.mod_lt y (Nat.two_pow_pos k)
  have h0 : (0 : Int) ≤ ((y % 2 ^ k : Nat) : Int) := Int.natCast_nonneg _
  have hval : consumedMultiplier y (k + 1) = ((y % 2 ^ k : Nat) : Int) - (y.testBit k).toNat * 2 ^ k := by
    rw [consumedMultiplier, testBit_two_mul_succ, mod_two_pow_succ_eq]
    push_cast
    ring
  rw [hval]
  cases y.testBit k <;> simp <;> omega

/-- All `n` bits: the signed multiplier. -/
theorem consumedMultiplier_all (y n : Nat) (hn : 1 ≤ n) (hy : y < 2 ^ n) :
    consumedMultiplier y n = fromTwosComplement y n := by
  obtain ⟨m, rfl⟩ := Nat.exists_eq_add_of_le' hn
  rw [consumedMultiplier, testBit_two_mul_succ, Nat.mod_eq_of_lt hy, fromTwosComplement, Nat.add_sub_cancel]
  cases y.testBit m <;> simp

/-! ## One iteration on the signed double register -/

/-- The multiple of the multiplicand that an action adds to A. -/
def actionMultiple : Action → Int
  | .none => 0
  | .add => 1
  | .subtract => -1

theorem boothDecide_multiple (q0 q1 : Bool) : actionMultiple (boothDecide q0 q1) = (q1.toNat : Int) - q0.toNat := by
  cases q0 <;> cases q1 <;> rfl

theorem aluResult_emod (act : Action) (A M n : Nat) (hM : M < 2 ^ n) :
    (aluResult act A M n : Int) % 2 ^ n = ((A : Int) + actionMultiple act * M) % 2 ^ n := by
  cases act with
  | none => simp [aluResult, actionMultiple]
  | add => rw [aluResult, maskedAdd_emod, actionMultiple, one_mul]
  | subtract =>
    rw [aluResult, maskedSub_cast A M n hM, Int.emod_emod_of_dvd _ dvd_rfl, actionMultiple, neg_one_mul, sub_eq_add_neg]

/-- `X` is the integer that M acts as: the residue of M, in the range whose multiples of ±1 never overflow A. That is the
signed M, or its negation where M is the most negative value (90_conflicts.md C1). -/
structure ActsAs (n M : Nat) (X : Int) : Prop where
  fits : M < 2 ^ n
  residue : (M : Int) % 2 ^ n = X % 2 ^ n
  above : -2 ^ (n - 1) < X
  atMost : X ≤ 2 ^ (n - 1)

/-- An action whose exact result is in range adds its multiple of the multiplicand to the signed double register. -/
theorem ProductS_aluResult (act : Action) (A M Q n : Nat) (X : Int) (hn : 1 ≤ n) (hA : A < 2 ^ n) (hQ : Q < 2 ^ n)
    (hX : ActsAs n M X)
    (hrange : -2 ^ (2 * n - 1) ≤ ProductS A Q n + actionMultiple act * X * 2 ^ n ∧
      ProductS A Q n + actionMultiple act * X * 2 ^ n ≤ 2 ^ (2 * n - 1) - 1) :
    ProductS (aluResult act A M n) Q n = ProductS A Q n + actionMultiple act * X * 2 ^ n := by
  refine eq_of_signed_range_of_emod_eq (by omega) (ProductS_range _ Q n hn (aluResult_lt act A M n hA) hQ) hrange ?_
  have hpow : (2 : Int) ^ (2 * n) = 2 ^ n * 2 ^ n := by rw [two_mul, pow_add]
  have hA' : (aluResult act A M n : Int) ≡ A + actionMultiple act * X [ZMOD 2 ^ n] :=
    (aluResult_emod act A M n hX.fits).trans ((Int.ModEq.mul_left (actionMultiple act) hX.residue).add_left A)
  have hscaled : (aluResult act A M n : Int) * 2 ^ n ≡ (A + actionMultiple act * X) * 2 ^ n [ZMOD 2 ^ (2 * n)] := by
    rw [hpow]
    exact hA'.mul_right'
  have hsum : ((A : Int) + actionMultiple act * X) * 2 ^ n + Q = (A * 2 ^ n + Q) + actionMultiple act * X * 2 ^ n := by ring
  calc ProductS (aluResult act A M n) Q n % 2 ^ (2 * n)
      = ((aluResult act A M n : Int) * 2 ^ n + Q) % 2 ^ (2 * n) := ProductS_emod _ Q n
    _ = ((A + actionMultiple act * X) * 2 ^ n + Q) % 2 ^ (2 * n) := hscaled.add_right Q
    _ = ((A * 2 ^ n + Q) + actionMultiple act * X * 2 ^ n) % 2 ^ (2 * n) := by rw [hsum]
    _ = (ProductS A Q n + actionMultiple act * X * 2 ^ n) % 2 ^ (2 * n) :=
      (Int.ModEq.symm (ProductS_emod A Q n)).add_right _

/-! ## The invariant of the iterations -/

/-- After `k` iterations on the multiplier `y`: the signed double register is the multiple of X by the consumed multiplier
bits, in its high part, above the bits of `y` that are still to come. -/
structure BoothAfter (n y : Nat) (X : Int) (k : Nat) (r : Regs) : Prop where
  A_fits : r.A < 2 ^ n
  Q_fits : r.Q < 2 ^ n
  latch : r.q1 = (2 * y).testBit k
  register : ProductS r.A r.Q n = X * consumedMultiplier y k * 2 ^ (n - k) + (y / 2 ^ k : Nat)

theorem boothAfter_initialRegs (n src_y : Nat) (X : Int) (hn : 1 ≤ n) :
    BoothAfter n (toTwosComplement src_y n) X 0 (initialRegs n src_y) := by
  have hy := toTwosComplement_lt src_y n
  refine ⟨Nat.two_pow_pos n, hy, ?_, ?_⟩
  · simp [initialRegs]
  · have hzero : fromTwosComplement 0 n = 0 := by simp [fromTwosComplement]
    rw [initialRegs, ProductS_eq 0 _ n hn hy, hzero, consumedMultiplier_zero, pow_zero, Nat.div_one]
    ring

/-- The bit under the Booth decision is the next one of the multiplier. -/
theorem BoothAfter.testBit_Q {n y k : Nat} {X : Int} {r : Regs} (h : BoothAfter n y X k r) (hk : k < n) :
    r.Q.testBit 0 = y.testBit k := by
  have hreg := h.register
  rw [ProductS_eq _ _ n (by omega) h.Q_fits] at hreg
  have hdiff : (r.Q : Int) - (y / 2 ^ k : Nat) =
      X * consumedMultiplier y k * 2 ^ (n - k) - fromTwosComplement r.A n * 2 ^ n := by linarith
  have heven : (2 : Int) ∣ (r.Q : Int) - (y / 2 ^ k : Nat) := by
    rw [hdiff]
    exact dvd_sub (Dvd.dvd.mul_left (dvd_pow_self 2 (by omega)) _) (Dvd.dvd.mul_left (dvd_pow_self 2 (by omega)) _)
  have hmod : r.Q % 2 = y / 2 ^ k % 2 := by omega
  rw [Nat.testBit_zero, Nat.testBit_eq_decide_div_mod_eq, hmod]

/-- A factor of magnitude at most `h`, not `-h` itself, times one of the signed range of magnitude `K`. -/
theorem mul_signed_range {h K X Y : Int} (hXlo : -h < X) (hXhi : X ≤ h) (_ : 1 ≤ K) (hYlo : -K ≤ Y) (hYhi : Y ≤ K - 1) :
    -(h * K) ≤ X * Y ∧ X * Y ≤ h * K - 1 := by
  rcases le_or_gt 0 X with hX | hX
  · constructor <;> nlinarith
  · constructor <;> nlinarith

/-- The exact sum of an action stays in the range of the signed double register. -/
theorem boothSum_range (n y k : Nat) (X : Int) (hk : k < n) (hy : y < 2 ^ n) (hlo : -2 ^ (n - 1) < X) (hhi : X ≤ 2 ^ (n - 1)) :
    -2 ^ (2 * n - 1) ≤ X * consumedMultiplier y (k + 1) * 2 ^ (n - k) + (y / 2 ^ k : Nat) ∧
      X * consumedMultiplier y (k + 1) * 2 ^ (n - k) + (y / 2 ^ k : Nat) ≤ 2 ^ (2 * n - 1) - 1 := by
  obtain ⟨hYlo, hYhi⟩ := consumedMultiplier_succ_range y k
  obtain ⟨hPlo, hPhi⟩ := mul_signed_range hlo hhi (one_le_pow₀ (by norm_num)) hYlo hYhi
  have hrest : y / 2 ^ k < 2 ^ (n - k) :=
    Nat.div_lt_of_lt_mul (by rwa [← pow_add, Nat.add_sub_cancel' hk.le])
  have hresti : ((y / 2 ^ k : Nat) : Int) < 2 ^ (n - k) := mod_cast hrest
  have hpow : (2 : Int) ^ (2 * n - 1) = 2 ^ (n - 1) * 2 ^ k * 2 ^ (n - k) := by
    rw [← pow_add, ← pow_add]
    congr 1
    omega
  have hR : (0 : Int) < 2 ^ (n - k) := by positivity
  rw [hpow]
  constructor <;> nlinarith

/-- An iteration consumes one multiplier bit: the exact sum of the action, halved by the shift. -/
theorem BoothAfter.succ {n M y k : Nat} {X : Int} {r : Regs} (h : BoothAfter n y X k r) (hk : k < n) (hy : y < 2 ^ n)
    (hX : ActsAs n M X) : BoothAfter n y X (k + 1) (boothStep n M r) := by
  have hn : 1 ≤ n := by omega
  have hsum : ProductS r.A r.Q n + actionMultiple (boothDecide (r.Q.testBit 0) r.q1) * X * 2 ^ n =
      X * consumedMultiplier y (k + 1) * 2 ^ (n - k) + (y / 2 ^ k : Nat) := by
    rw [h.register, boothDecide_multiple, h.testBit_Q hk, h.latch, consumedMultiplier_succ,
      ← Nat.add_sub_cancel' hk.le, Nat.add_sub_cancel_left, pow_add]
    ring
  have hrange := boothSum_range n y k X hk hy hX.above hX.atMost
  rw [← hsum] at hrange
  have halu := (ProductS_aluResult _ r.A M r.Q n X hn h.A_fits h.Q_fits hX hrange).trans hsum
  obtain ⟨hA, hQ⟩ := boothStep_fits n M r hn h.A_fits h.Q_fits
  refine ⟨hA, hQ, (h.testBit_Q hk).trans (testBit_two_mul_succ y k).symm, ?_⟩
  have hshift := ProductS_shift { r with A := aluResult (boothDecide (r.Q.testBit 0) r.q1) r.A M n } n hn
    (aluResult_lt _ _ _ _ h.A_fits) h.Q_fits
  have hhalf : X * consumedMultiplier y (k + 1) * 2 ^ (n - k) = 2 * (X * consumedMultiplier y (k + 1) * 2 ^ (n - (k + 1))) := by
    rw [show n - k = n - (k + 1) + 1 by omega, pow_succ]
    ring
  have hbits : y / 2 ^ (k + 1) = y / 2 ^ k / 2 := by rw [pow_succ, Nat.div_div_eq_div_mul]
  rw [boothStep, hshift, halu, hhalf, hbits]
  omega

/-- `k` iterations from the registers of RESET. -/
theorem boothAfter_boothIter (n M src_y k : Nat) (X : Int) (hn : 1 ≤ n) (hk : k ≤ n) (hX : ActsAs n M X) :
    BoothAfter n (toTwosComplement src_y n) X k (boothIter n M k (initialRegs n src_y)) := by
  induction k with
  | zero => exact boothAfter_initialRegs n src_y X hn
  | succ k ih => exact (ih (by omega)).succ hk (toTwosComplement_lt _ n) hX

/-- After all `n` iterations the signed double register is X times the signed multiplier. -/
theorem ProductS_boothIter_all (n M src_y : Nat) (X : Int) (hn : 1 ≤ n) (hX : ActsAs n M X) :
    ProductS (boothIter n M n (initialRegs n src_y)).A (boothIter n M n (initialRegs n src_y)).Q n =
      X * fromTwosComplement (toTwosComplement src_y n) n := by
  have hy := toTwosComplement_lt src_y n
  rw [(boothAfter_boothIter n M src_y n X hn le_rfl hX).register, consumedMultiplier_all _ n hn hy, Nat.sub_self,
    Nat.div_eq_of_lt hy]
  simp

/-! ## What M acts as -/

theorem actsAs_fromTwosComplement (n M : Nat) (hn : 1 ≤ n) (hM : M < 2 ^ n)
    (hne : fromTwosComplement M n ≠ -2 ^ (n - 1)) : ActsAs n M (fromTwosComplement M n) := by
  obtain ⟨hlo, hhi⟩ := fromTwosComplement_range M n hn hM
  exact ⟨hM, (fromTwosComplement_emod M n).symm, lt_of_le_of_ne hlo hne.symm, by omega⟩

/-- The most negative value is its own negation mod `2^n`, and its negation is in range (90_conflicts.md C1). -/
theorem actsAs_neg_of_most_negative (n M : Nat) (hn : 1 ≤ n) (hM : M < 2 ^ n)
    (heq : fromTwosComplement M n = -2 ^ (n - 1)) : ActsAs n M (-fromTwosComplement M n) := by
  have hpos : (0 : Int) < 2 ^ (n - 1) := by positivity
  have hW : (2 : Int) ^ n = 2 * 2 ^ (n - 1) := (mul_pow_sub_one (by omega) 2).symm
  have hneg : -fromTwosComplement M n = fromTwosComplement M n + 2 ^ n := by rw [hW, heq]; ring
  refine ⟨hM, ?_, ?_, ?_⟩
  · rw [hneg, Int.add_emod_right, fromTwosComplement_emod]
  · rw [heq]; omega
  · rw [heq, neg_neg]

/-- The product that `n` iterations leave: the signed product, or its negation where M is the most negative value. -/
theorem ProductS_boothIter (n M src_y : Nat) (hn : 1 ≤ n) (hM : M < 2 ^ n) :
    ProductS (boothIter n M n (initialRegs n src_y)).A (boothIter n M n (initialRegs n src_y)).Q n =
      if fromTwosComplement M n = -2 ^ (n - 1) then
        -(fromTwosComplement M n * fromTwosComplement (toTwosComplement src_y n) n)
      else fromTwosComplement M n * fromTwosComplement (toTwosComplement src_y n) n := by
  split
  · next heq => rw [ProductS_boothIter_all n M src_y _ hn (actsAs_neg_of_most_negative n M hn hM heq), neg_mul]
  · next hne => exact ProductS_boothIter_all n M src_y _ hn (actsAs_fromTwosComplement n M hn hM hne)

/-! ## The obligations -/

/-- The pattern that the host drives for an integer is stored unchanged. -/
theorem resolveSource_busPattern (nmax old : Nat) (v : Int) :
    resolveSource nmax (some (busPattern nmax v)) old = busPattern nmax v :=
  busValue_of_fits nmax _ (decide_eq_true (toTwosComplement_lt v nmax))

/-- The registers that RUN leaves after a RESET that ended with OK: all `n` iterations from the initial ones. -/
theorem runLoop_loadConfiguration_regs (x y : Option Nat) (bits : Option BitsBus) (st : Status) (s : State) :
    (runLoop (respond st (loadConfiguration x y bits s))).regs =
      boothIter (resolveWidth bits s.n) (loadConfiguration x y bits s).M (resolveWidth bits s.n)
        (initialRegs (resolveWidth bits s.n) (resolveSource s.nmax y s.src_y)) :=
  stepBodies_regs _ _

section ResetThenRun

variable (s : State) (vx vy : Int) (b : BitsBus) (hmin : 4 ≤ b.toNat) (hmax : b.toNat ≤ s.nmax)

/-- What RESET with three operands leaves before RUN. -/
def resetWith : State := respond .OK (loadConfiguration (some (busPattern s.nmax vx)) (some (busPattern s.nmax vy)) (some b) s)

include hmax in
theorem resetWith_M : (resetWith s vx vy b).M = toTwosComplement vx b.toNat := by
  rw [resetWith, respond_M, loadConfiguration_M, resolveSource_busPattern]
  exact storedSourceLosesNothing vx b.toNat s.nmax hmax

theorem runLoop_resetWith_n : (runLoop (resetWith s vx vy b)).n = b.toNat := stepBodies_n _ _

theorem runLoop_resetWith_done : (runLoop (resetWith s vx vy b)).done = true := by
  refine (done_iff _).2 ⟨stepBodies_cfg_valid _ _, ?_⟩
  rw [runLoop, stepBodies_count, stepBodies_n]
  exact Nat.zero_add _

include hmin hmax in
theorem ProductS_runLoop_resetWith :
    ProductS (runLoop (resetWith s vx vy b)).A (runLoop (resetWith s vx vy b)).Q b.toNat =
      if fromTwosComplement (toTwosComplement vx b.toNat) b.toNat = -2 ^ (b.toNat - 1) then
        -(fromTwosComplement (toTwosComplement vx b.toNat) b.toNat * fromTwosComplement (toTwosComplement vy b.toNat) b.toNat)
      else
        fromTwosComplement (toTwosComplement vx b.toNat) b.toNat * fromTwosComplement (toTwosComplement vy b.toNat) b.toNat := by
  have hregs : (runLoop (resetWith s vx vy b)).regs = boothIter b.toNat (toTwosComplement vx b.toNat) b.toNat
      (initialRegs b.toNat (busPattern s.nmax vy)) := by
    rw [← resetWith_M s vx vy b hmax, ← resolveSource_busPattern s.nmax s.src_y vy]
    exact runLoop_loadConfiguration_regs _ _ _ _ s
  rw [← regs_A, ← regs_Q, hregs,
    ProductS_boothIter b.toNat _ (busPattern s.nmax vy) (by omega) (toTwosComplement_lt vx b.toNat),
    storedSourceLosesNothing vy b.toNat s.nmax hmax]

end ResetThenRun

/-- Settles O27: RESET leaves the low `n` bits of both operands, RUN executes all `n` iterations on them. -/
theorem boothProductOfResetThenRun : Obligations.BoothProductOfResetThenRun := by
  unfold Obligations.BoothProductOfResetThenRun
  intro s vx vy b hb
  obtain ⟨hmin, hmax⟩ := (bitsValid_iff s.nmax b).1 hb
  have hprod := ProductS_runLoop_resetWith s vx vy b hmin hmax
  exact ⟨resetWith s vx vy b, _, exec_reset_of_valid _ _ _ s (.inr rfl) hb, exec_run_of_configured _ rfl,
    runLoop_resetWith_n s vx vy b, runLoop_resetWith_done s vx vy b, fun hx => hprod.trans (if_neg hx),
    fun hx => hprod.trans (if_pos hx)⟩

/-- Settles O28: by the trace the registers are those after `n` iterations from the stored sources. -/
theorem doneStateHoldsProduct : Obligations.DoneStateHoldsProduct := by
  unfold Obligations.DoneStateHoldsProduct
  intro s h htr hdone
  obtain ⟨hc, hcount⟩ := (done_iff s).1 hdone
  obtain ⟨hmin, -⟩ := h.configured hc
  have hM : s.M < 2 ^ s.n := by rw [htr.multiplicand hc]; exact toTwosComplement_lt _ _
  have hregs := htr.registers hc
  rw [hcount] at hregs
  have hprod := ProductS_boothIter s.n s.M s.src_y (le_trans (by decide) hmin) hM
  rw [← hregs, regs_A, regs_Q, htr.multiplicand hc] at hprod
  exact ⟨hprod, by rw [← hprod]; exact readObs_of_configured .obs_prod_s s hc⟩

end Sys2Proof.Machine
end

section
/-! The host's commands as whole transitions (41_engine.md): what RESET forgets and what it reads, RUN as its remaining
iterations and as STEPs, and the result and the log that a RUN leaves on the ports. -/

namespace Sys2Proof.Machine

/-! ## RESET (41_engine.md R113 to R116) -/

theorem resolveSource_idem (nmax : Nat) (o : Option Nat) (old : Nat) :
    resolveSource nmax o (resolveSource nmax o old) = resolveSource nmax o old := by
  cases o <;> rfl

theorem resolveWidth_idem (o : Option BitsBus) (old : Nat) : resolveWidth o (resolveWidth o old) = resolveWidth o old := by
  cases o <;> rfl

/-- The second RESET resolves its operands to what the first one stored. -/
theorem loadConfiguration_idem (x y : Option Nat) (bits : Option BitsBus) (st : Status) (s : State) :
    loadConfiguration x y bits (respond st (loadConfiguration x y bits s)) = respond st (loadConfiguration x y bits s) := by
  simp only [loadConfiguration, respond, resolveSource_idem, resolveWidth_idem]

/-- Settles O6: by the outcome of the first RESET; the second one finds its checks as the first did. -/
theorem resetIsIdempotent : Obligations.ResetIsIdempotent := by
  unfold Obligations.ResetIsIdempotent
  intro s t x y bits ht
  by_cases hcfg : s.cfg_valid = true ∨ allSupplied x y bits = true
  · by_cases hb : suppliedBitsValid s.nmax bits = true
    · rw [exec_reset_of_valid x y bits s hcfg hb] at ht
      cases ht
      have hagain := exec_reset_of_valid x y bits (respond .OK (loadConfiguration x y bits s)) (.inl rfl) hb
      rw [loadConfiguration_idem] at hagain
      exact hagain
    · rw [exec_reset_of_invalid_bits x y bits s hcfg hb] at ht
      cases ht
      exact exec_reset_of_invalid_bits x y bits (respond .INVALID_CONFIGURATION s) hcfg hb
  · obtain ⟨hc, hall⟩ := not_or.1 hcfg
    have hc' : s.cfg_valid = false := Bool.eq_false_of_not_eq_true hc
    rw [exec_reset_of_unconfigured x y bits s hc' hall] at ht
    cases ht
    exact exec_reset_of_unconfigured x y bits (respond .NOT_CONFIGURED s) hc' hall

theorem readLog_fault (a : Nat) (s : State) (hv : logRvalid a s = false) : readLog a s = .fault .logReadInvalid :=
  if_neg (by simp [hv])

theorem readLog_fault_of_empty (a : Nat) (s : State) (h : s.log_len = 0) : readLog a s = .fault .logReadInvalid :=
  readLog_fault a s (by simp [logRvalid, h])

/-- RESTART keeps the stored sources and the width, and those no step body writes. -/
theorem restart_after_stepBodies (k : Nat) (s : State) :
    { loadConfiguration none none none (stepBodies k s) with Log := [] } =
      { loadConfiguration none none none s with Log := [] } := by
  simp [loadConfiguration, resolveSource, resolveWidth]

/-- Settles O7: RESTART passes its checks in every configured state and reads nothing that a step writes. -/
theorem restartForgetsExecutedSteps : Obligations.RestartForgetsExecutedSteps := by
  unfold Obligations.RestartForgetsExecutedSteps
  intro s k hc
  have hrestart := fun u (hu : u.cfg_valid = true) => exec_reset_of_valid none none none u (.inl hu) rfl
  have hforget := congrArg (respond .OK) (restart_after_stepBodies k s)
  refine ⟨_, _, hrestart s hc, hrestart (stepBodies k s) ((stepBodies_cfg_valid k s).trans hc), hforget,
    fun i => readLog_fault_of_empty i _ rfl, ?_, ?_⟩ <;> simp [resolveSource, resolveWidth]

/-- RESET with all three operands reads no register that the hardware reset leaves unspecified. -/
theorem loadConfiguration_all_of_agree (x y : Nat) (b : BitsBus) (s t : State) (h : agreeOnDefined s t) :
    { respond .OK (loadConfiguration (some x) (some y) (some b) t) with Log := [] } =
      { respond .OK (loadConfiguration (some x) (some y) (some b) s) with Log := [] } := by
  obtain ⟨hnmax, -, -, -, hphase, -, hhost, hdraws⟩ := h
  simp [loadConfiguration, respond, resolveSource, resolveWidth, hnmax, hphase, hhost, hdraws]

/-- Two unconfigured states whose registers differ answer a command alike: with one status, or by the same RESET. -/
theorem exec_of_agreeOnDefined (s t : State) (i : Instr) (hi : isCommand i = true) (hs : s.cfg_valid = false)
    (h : agreeOnDefined s t) :
    (∃ st, exec i s = .next (respond st s) ∧ exec i t = .next (respond st t)) ∨
      ∃ x y b, exec i s = .next (respond .OK (loadConfiguration (some x) (some y) (some b) s)) ∧
        exec i t = .next (respond .OK (loadConfiguration (some x) (some y) (some b) t)) := by
  obtain ⟨hnmax, -, hcfg, -⟩ := h
  have ht : t.cfg_valid = false := hcfg.trans hs
  cases i with
  | reset x y bits =>
    by_cases hall : allSupplied x y bits = true
    · by_cases hb : suppliedBitsValid s.nmax bits = true
      · obtain ⟨hx, hy, hbits⟩ := (allSupplied_iff x y bits).1 hall
        obtain ⟨x, rfl⟩ := Option.isSome_iff_exists.1 hx
        obtain ⟨y, rfl⟩ := Option.isSome_iff_exists.1 hy
        obtain ⟨b, rfl⟩ := Option.isSome_iff_exists.1 hbits
        exact .inr ⟨x, y, b, exec_reset_of_valid _ _ _ s (.inr hall) hb,
          exec_reset_of_valid _ _ _ t (.inr hall) (hnmax ▸ hb)⟩
      · exact .inl ⟨.INVALID_CONFIGURATION, exec_reset_of_invalid_bits x y bits s (.inr hall) hb,
          exec_reset_of_invalid_bits x y bits t (.inr hall) (hnmax ▸ hb)⟩
    · exact .inl ⟨.NOT_CONFIGURED, exec_reset_of_unconfigured x y bits s hs hall,
        exec_reset_of_unconfigured x y bits t ht hall⟩
  | step => exact .inl ⟨.NOT_CONFIGURED, exec_step_of_unconfigured s hs, exec_step_of_unconfigured t ht⟩
  | run => exact .inl ⟨.NOT_CONFIGURED, exec_run_of_unconfigured s hs, exec_run_of_unconfigured t ht⟩
  | actNone => cases hi
  | actAdd => cases hi
  | actSubtract => cases hi

/-- Settles O4: without a configuration a command answers a status alone, or is a RESET that supplies every operand. -/
theorem unspecifiedRegistersAreNotRead : Obligations.UnspecifiedRegistersAreNotRead := by
  unfold Obligations.UnspecifiedRegistersAreNotRead
  intro s t i hi hs h
  obtain ⟨st, hes, het⟩ | ⟨x, y, b, hes, het⟩ := exec_of_agreeOnDefined s t i hi hs h
  · obtain ⟨-, -, hcfg, -⟩ := h
    exact ⟨_, _, hes, het, rfl, hcfg, fun hconf => by simp [hs] at hconf⟩
  · exact ⟨_, _, hes, het, rfl, rfl, fun _ => loadConfiguration_all_of_agree x y b s t h⟩

/-! ## Operands that agree in their low bits (40_datapath.md R107) -/

/-- The state with other stored sources. -/
def withSources (a b : Nat) (s : State) : State := { s with src_x := a, src_y := b }

theorem eq_withSources_own {a b : Nat} {s t : State} (h : t = withSources a b s) : t = withSources t.src_x t.src_y s := by
  rw [h]
  rfl

/-- A step body neither reads nor writes the stored sources. -/
theorem stepBodies_withSources (k : Nat) (s : State) (a b : Nat) :
    stepBodies k (withSources a b s) = withSources a b (stepBodies k s) := by
  induction k generalizing s with
  | zero => rfl
  | succ k ih => exact ih (stepBody s)

theorem runLoop_withSources (s : State) (a b : Nat) : runLoop (withSources a b s) = withSources a b (runLoop s) :=
  stepBodies_withSources (s.n - s.count) s a b

/-- The low `n` bits of an operand are those of what its bus carries. -/
theorem toTwosComplement_busValue (nmax n v : Nat) (h : n ≤ nmax) : toTwosComplement (busValue nmax v : Int) n = v % 2 ^ n := by
  rw [toTwosComplement_natCast, busValue, Nat.mod_mod_of_dvd v (Nat.pow_dvd_pow 2 h)]

/-- Operands with the same low `n` bits load the same registers. -/
theorem loadConfiguration_of_same_low_bits (s : State) (x x' y y' : Nat) (b : BitsBus) (hb : b.toNat ≤ s.nmax)
    (hx : x % 2 ^ b.toNat = x' % 2 ^ b.toNat) (hy : y % 2 ^ b.toNat = y' % 2 ^ b.toNat) :
    loadConfiguration (some x') (some y') (some b) s =
      withSources (busValue s.nmax x') (busValue s.nmax y') (loadConfiguration (some x) (some y) (some b) s) := by
  simp only [withSources, loadConfiguration, resolveSource, resolveWidth, toTwosComplement_busValue _ _ _ hb, hx, hy]

/-- Settles O9: both RESETs load the same registers, and no step reads the stored sources. -/
theorem productDependsOnLowBitsOnly : Obligations.ProductDependsOnLowBitsOnly := by
  unfold Obligations.ProductDependsOnLowBitsOnly
  intro s x x' y y' b hb hx hy
  obtain ⟨-, hmax⟩ := (bitsValid_iff s.nmax b).1 hb
  let t := respond .OK (loadConfiguration (some x) (some y) (some b) s)
  let t' := respond .OK (loadConfiguration (some x') (some y') (some b) s)
  have hload : t' = withSources (busValue s.nmax x') (busValue s.nmax y') t :=
    congrArg (respond .OK) (loadConfiguration_of_same_low_bits s x x' y y' b hmax hx hy)
  have hrun : respond .OK (runLoop t') = withSources (busValue s.nmax x') (busValue s.nmax y') (respond .OK (runLoop t)) := by
    rw [hload, runLoop_withSources]
    rfl
  have hreset := fun v w => exec_reset_of_valid (some v) (some w) (some b) s (.inr rfl) hb
  exact ⟨t, t', _, _, hreset x y, hreset x' y', exec_run_of_configured _ rfl, exec_run_of_configured _ rfl,
    eq_withSources_own hload, eq_withSources_own hrun⟩

/-! ## RUN as its remaining iterations (41_engine.md R125, R128) -/

/-- The whole state after `k` step bodies, in terms of its own log. -/
theorem stepBodies_eq (k : Nat) (s : State) :
    stepBodies k s =
      { s with
        A := (boothIter s.n s.M k s.regs).A, Q := (boothIter s.n s.M k s.regs).Q, q1 := (boothIter s.n s.M k s.regs).q1
        count := s.count + k, log_len := s.log_len + k, Log := (stepBodies k s).Log } := by
  induction k generalizing s with
  | zero => rfl
  | succ k ih =>
    conv_lhs => rw [stepBodies_succ, ih]
    simp [boothIter_step, stepBodies_succ, Nat.add_assoc, Nat.add_comm 1 k]

/-- Settles O16: RUN is `n - count` step bodies, and with `log_len = count` their entries end at `n`. -/
theorem runCompletesRemainingSteps : Obligations.RunCompletesRemainingSteps := by
  unfold Obligations.RunCompletesRemainingSteps
  intro s h hc r d
  obtain ⟨-, -, -, -, -, hle⟩ := h.configured hc
  have hcount : s.count + d = s.n := Nat.add_sub_cancel' hle
  have hlen : s.log_len + d = s.n := by rw [h.log_len_eq, hcount]
  refine ⟨_, exec_run_of_configured s hc, ?_, ?_, stepBodies_log_wf d s h.log_wf, fun j hj => ?_, fun i hi => ?_⟩
  · have heq := stepBodies_eq d s
    rw [hcount, hlen] at heq
    exact congrArg (respond .OK) heq
  · refine (done_iff _).2 ⟨(stepBodies_cfg_valid d s).trans hc, ?_⟩
    rw [respond_count, respond_n, runLoop, stepBodies_count, stepBodies_n, hcount]
  · rw [respond_Log, runLoop, stepBodies_read, if_pos (by omega), Nat.add_sub_cancel_left]
  · exact stepBodies_read_outside d s i (by rwa [stepBodies_log_len, hlen])

/-- Settles O17: with a step to do, both are the same step bodies. -/
theorem runEqualsRemainingSteps : Obligations.RunEqualsRemainingSteps := by
  unfold Obligations.RunEqualsRemainingSteps
  intro s hc hlt
  obtain ⟨k, hk⟩ := Nat.exists_eq_add_of_le' (Nat.sub_pos_of_lt hlt)
  rw [exec_run_of_configured s hc, runLoop, hk]
  exact execTimes_step_of_count_add_lt k s hc (by omega)

/-! ## The log and the result on the ports (20_memory.md R53, 41_engine.md R126) -/

/-- The log of a configured state is read below `log_len`, entry by entry. -/
structure LogReadable (s : State) : Prop where
  configured : s.cfg_valid = true
  in_memory : s.log_len ≤ s.nmax
  present : ∀ i, i < s.log_len → (Memory.read s.Log i).isSome = true

theorem StateInv.logReadable {s : State} (h : StateInv s) (hc : s.cfg_valid = true) : LogReadable s := by
  obtain ⟨-, hn, -, -, -, hcount⟩ := h.configured hc
  exact ⟨hc, by rw [h.log_len_eq]; omega, h.log_readable⟩

/-- The port's value at an index below `log_len` is the view of the entry there. -/
theorem LogReadable.readLog_eq {s : State} (h : LogReadable s) {i : Nat} {e : LogEntry} (hi : i < s.log_len)
    (he : Memory.read s.Log i = some e) : readLog i s = .next (logView e s) := by
  have haddr : logAddress s.nmax i = i := logAddress_of_le _ _ (hi.le.trans h.in_memory)
  exact readLog_next i s e ((logRvalid_iff i s).2 ⟨h.configured, haddr.symm ▸ hi⟩) (haddr.symm ▸ he)

theorem LogReadable.exists_readLog {s : State} (h : LogReadable s) {i : Nat} (hi : i < s.log_len) :
    ∃ o, readLog i s = .next o := by
  obtain ⟨e, he⟩ := Option.isSome_iff_exists.1 (h.present i hi)
  exact ⟨_, h.readLog_eq hi he⟩

/-- The list of the first `k` entries holds what the port gives at each index. -/
theorem LogReadable.readLogUpTo {s : State} (h : LogReadable s) (k : Nat) (hk : k ≤ s.log_len) :
    ∃ l, readLogUpTo s k = some l ∧ l.length = k ∧ ∀ i o, l[i]? = some o → readLog i s = .next o := by
  induction k with
  | zero => exact ⟨[], rfl, rfl, fun i o ho => by simp at ho⟩
  | succ k ih =>
    obtain ⟨l, hl, hlen, hget⟩ := ih (by omega)
    obtain ⟨e, he⟩ := h.exists_readLog hk
    refine ⟨l ++ [e], by rw [Machine.readLogUpTo, hl, he], by simp [hlen], fun i o ho => ?_⟩
    rcases Nat.lt_trichotomy i l.length with hi | rfl | hi
    · exact hget i o (by rwa [List.getElem?_append_left hi] at ho)
    · rw [List.getElem?_concat_length] at ho
      cases ho
      rw [hlen, he]
    · rw [List.getElem?_eq_none (by simp; omega)] at ho
      cases ho

/-- Step bodies keep every written entry readable and add theirs. -/
theorem stepBodies_present (k : Nat) (s : State) (h : ∀ i, i < s.log_len → (Memory.read s.Log i).isSome = true) (i : Nat)
    (hi : i < s.log_len + k) : (Memory.read (stepBodies k s).Log i).isSome = true := by
  rw [stepBodies_read]
  split
  · rfl
  · exact h i (by omega)

theorem LogReadable_runLoop (st : Status) (s : State) (h : StateInv s) (hc : s.cfg_valid = true) :
    LogReadable (respond st (runLoop s)) ∧ (respond st (runLoop s)).log_len = s.n := by
  obtain ⟨-, hn, -, -, -, hle⟩ := h.configured hc
  have hlen : (runLoop s).log_len = s.n := by rw [runLoop, stepBodies_log_len, h.log_len_eq, Nat.add_sub_cancel' hle]
  refine ⟨⟨(stepBodies_cfg_valid _ s).trans hc, ?_, fun i hi => ?_⟩, hlen⟩
  · rw [respond_log_len, hlen, respond_nmax, runLoop, stepBodies_nmax]
    exact hn
  · exact stepBodies_present _ s h.log_readable i (by rwa [respond_log_len, runLoop, stepBodies_log_len] at hi)

theorem runResult_of_log (s : State) (l : List LogOut) (h : readLogUpTo s s.n = some l) :
    runResult s =
      some { finalA := s.A, finalQ := s.Q, finalQ1 := s.q1, productUnsigned := ProductU s.A s.Q s.n
             productSigned := ProductS s.A s.Q s.n, log := l } := by
  rw [runResult, h]

/-- Settles O18: every index below `n` is readable, and the registers are those that the ports drive. -/
theorem runResultIsOnThePorts : Obligations.RunResultIsOnThePorts := by
  unfold Obligations.RunResultIsOnThePorts
  intro s h hc
  obtain ⟨hread, hlen⟩ := LogReadable_runLoop .OK s h hc
  have hn : (respond .OK (runLoop s)).n = s.n := stepBodies_n _ s
  have hnmax : (respond .OK (runLoop s)).nmax = s.nmax := stepBodies_nmax _ s
  obtain ⟨l, hl, hll, hget⟩ := hread.readLogUpTo s.n hlen.ge
  have hports := fun p => readObs_of_configured p (respond .OK (runLoop s)) hread.configured
  have hresult := runResult_of_log (respond .OK (runLoop s)) l (by rw [hn, hl])
  refine ⟨_, _, exec_run_of_configured s hc, hresult, hports .obs_A, hports .obs_Q, hports .obs_q1,
    hports .obs_prod_u, ?_, hll, hget⟩
  rw [hports .obs_prod_s, obsValue, hnmax]

end Sys2Proof.Machine
end

section
/-! What a transition may change (10_state.md R24 to R40, 41_engine.md R111, R119): the configuration, the frame of a
command, the actions alone and inside a STEP, and that the machine never stops. -/

namespace Sys2Proof.Machine

/-! ## The hardware reset (70_reset_and_hazards.md R161) -/

/-- Every bit of the status word is 0 in an unconfigured engine that executes nothing. -/
theorem obs_status_of_unconfigured (s : State) (hc : s.cfg_valid = false) (hp : s.phase = .IDLE) : s.obs_status = 0#8 := by
  have hbusy : s.busy = false := by simp [State.busy, hp]
  rw [State.obs_status, hbusy, done_eq_false_of_unconfigured s hc, hc]
  rfl

/-- Settles O1: after either reset the engine is unconfigured, idle, with nothing counted and an empty log. -/
theorem hardwareResetLeavesUnconfigured : Obligations.HardwareResetLeavesUnconfigured := by
  unfold Obligations.HardwareResetLeavesUnconfigured
  intro s t ht
  have hdefined : t.cfg_valid = false ∧ t.phase = .IDLE ∧ t.count = 0 ∧ t.log_len = 0 ∧ t.rsp_valid = false := by
    obtain rfl | rfl := ht <;> exact ⟨rfl, rfl, rfl, rfl, rfl⟩
  obtain ⟨hc, hp, hcount, hlen, hrsp⟩ := hdefined
  refine ⟨hc, hp, hcount, hlen, hrsp, ?_, ?_, fun p hs hl => ?_, fun i => readLog_fault_of_empty i t hlen⟩
  · rw [readObs_obs_status, obs_status_of_unconfigured t hc hp]
    rfl
  · rw [readObs_obs_log_len, hlen]
  · exact readObs_fault_of_unconfigured p t hc (p.alwaysDefined_eq_false hs hl)

/-! ## One edge of a RUN, whole -/

theorem runEdge_completes (s : State) (h : s.count + 1 = s.n) : runEdge s = respond .OK { stepBody s with phase := .IDLE } :=
  if_pos h

theorem runEdge_continues (s : State) (h : s.count + 1 ≠ s.n) : runEdge s = noResponse { stepBody s with phase := .RUN_LOOP } :=
  if_neg h

/-! ## The configuration (10_state.md R24, R29 to R31) -/

/-- The configuration is the same in both states. -/
structure SameConfiguration (s t : State) : Prop where
  M : t.M = s.M
  n : t.n = s.n
  src_x : t.src_x = s.src_x
  src_y : t.src_y = s.src_y
  cfg_valid : t.cfg_valid = s.cfg_valid

theorem SameConfiguration_stepBodies (k : Nat) (s : State) : SameConfiguration s (stepBodies k s) :=
  ⟨stepBodies_M k s, stepBodies_n k s, stepBodies_src_x k s, stepBodies_src_y k s, stepBodies_cfg_valid k s⟩

theorem SameConfiguration_runEdge (s : State) : SameConfiguration s (runEdge s) := by
  by_cases h : s.count + 1 = s.n
  · rw [runEdge_completes s h]
    exact ⟨rfl, rfl, rfl, rfl, rfl⟩
  · rw [runEdge_continues s h]
    exact ⟨rfl, rfl, rfl, rfl, rfl⟩

/-- A transition keeps the configuration, or is the hardware reset, or is a RESET that ends with OK. -/
theorem step_configuration_cases {s t : State} (ht : step s = .next t) :
    SameConfiguration s t ∨ (nextIsHardwareReset s ∧ t.cfg_valid = false) ∨
      ∃ c rest x y bits, s.phase = .IDLE ∧ s.host = .command c :: rest ∧ decodeCommand s.nmax c = .ok (.reset x y bits) ∧
        (s.cfg_valid = true ∨ allSupplied x y bits = true) ∧ suppliedBitsValid s.nmax bits = true ∧
        t = respond .OK (loadConfiguration x y bits { s with host := rest }) := by
  rcases step_inversion ht with ⟨l, rfl⟩ | ⟨rest, hh, rfl⟩ | ⟨c, rest, hp, hh, ha⟩ | ⟨-, l, rfl⟩
  · exact .inl ⟨rfl, rfl, rfl, rfl, rfl⟩
  · exact .inr (.inl ⟨⟨rest, hh⟩, rfl⟩)
  · rcases acceptCommand_inversion ha with ⟨st, -, rfl⟩ | ⟨x, y, bits, hd, hcfg, hb, rfl⟩ | ⟨-, -, rfl⟩ | ⟨-, rfl⟩
    · exact .inl ⟨rfl, rfl, rfl, rfl, rfl⟩
    · exact .inr (.inr ⟨c, rest, x, y, bits, hp, hh, hd, hcfg, hb, rfl⟩)
    · exact .inl ⟨rfl, rfl, rfl, rfl, rfl⟩
    · obtain ⟨hM, hn, hx, hy, hc⟩ := SameConfiguration_stepBodies (s.n - s.count) { s with host := rest }
      exact .inl ⟨hM, hn, hx, hy, hc⟩
  · obtain ⟨hM, hn, hx, hy, hc⟩ := SameConfiguration_runEdge { s with host := l }
    exact .inl ⟨hM, hn, hx, hy, hc⟩

/-- Settles O32: by `step_configuration_cases`. -/
theorem configurationChangesOnlyByReset : Obligations.ConfigurationChangesOnlyByReset := by
  unfold Obligations.ConfigurationChangesOnlyByReset
  intro s t ht hchange
  rcases step_configuration_cases ht with ⟨hM, hn, hx, hy, -⟩ | ⟨hreset, -⟩ | ⟨c, rest, x, y, bits, hp, hh, hd, hcfg, hb, -⟩
  · simp [hM, hn, hx, hy] at hchange
  · exact .inr hreset
  · exact .inl ⟨c, rest, x, y, bits, hp, hh, hd, hcfg, hb⟩

/-- A RESET with all three operands is the word 0x71 (30_encoding.md R70). -/
theorem cmd_word_of_full_reset (nmax : Nat) (c : Command) (x y : Option Nat) (bits : Option BitsBus)
    (hd : decodeCommand nmax c = .ok (.reset x y bits)) (hall : allSupplied x y bits = true) : c.cmd_word = 0x71#8 := by
  have hrow := (decodeCommand_reset_iff nmax c).1 ⟨x, y, bits, hd⟩
  rw [decodeCommand_of_resetRow nmax c hrow] at hd
  cases hd
  simp only [allSupplied_iff, selected_isSome] at hall
  exact (resetWord_all_selected_iff c.cmd_word hrow).1 hall

/-- Settles O33: by `step_configuration_cases`; without a configuration a RESET passes only with all three operands. -/
theorem configuredOnlyByFullReset : Obligations.ConfiguredOnlyByFullReset := by
  unfold Obligations.ConfiguredOnlyByFullReset
  intro s t ht
  rcases step_configuration_cases ht with hsame | ⟨hreset, hcleared⟩ | ⟨c, rest, x, y, bits, -, hh, hd, hcfg, -, rfl⟩
  · have hc := hsame.cfg_valid
    exact ⟨fun hs htrue => by simp [hc, hs] at htrue, fun hs hfalse => by simp [hc, hs] at hfalse⟩
  · exact ⟨fun _ htrue => by simp [hcleared] at htrue, fun _ _ => hreset⟩
  · refine ⟨fun hs _ => ?_, fun _ hfalse => by simp at hfalse⟩
    have hall : allSupplied x y bits = true := hcfg.resolve_left (by simp [hs])
    exact ⟨c, rest, hh, cmd_word_of_full_reset s.nmax c x y bits hd hall, rfl, rfl⟩

/-! ## The frame of a command (00_scope.md R8, 10_state.md R40) -/

/-- What no instruction touches, and that the log stays in canonical form with its readable entries. -/
structure CommandKeeps (s t : State) : Prop where
  nmax : t.nmax = s.nmax
  host : t.host = s.host
  phase : t.phase = s.phase
  draws : t.draws = s.draws
  log_wf : Memory.wf s.Log = true → Memory.wf t.Log = true
  log : ∀ j, j < s.log_len → Memory.read t.Log j = Memory.read s.Log j

theorem CommandKeeps_stepBodies (k : Nat) (s : State) : CommandKeeps s (stepBodies k s) :=
  ⟨stepBodies_nmax k s, stepBodies_host k s, stepBodies_phase k s, stepBodies_draws k s, stepBodies_log_wf k s,
    fun j hj => stepBodies_read_outside k s j (.inl hj)⟩

theorem CommandKeeps.respond {s t : State} (h : CommandKeeps s t) (st : Status) : CommandKeeps s (respond st t) :=
  ⟨h.nmax, h.host, h.phase, h.draws, h.log_wf, h.log⟩

/-- An action executed alone writes A only (log entry 7). -/
theorem exec_instr (act : Action) (s : State) : exec act.instr s = .next { s with A := aluResult act s.A s.M s.n } := by
  cases act <;> rfl

theorem exec_keeps (i : Instr) (s : State) :
    ∃ t, exec i s = .next t ∧ CommandKeeps s t ∧ (isCommand i = false → t = { s with A := t.A }) := by
  obtain ⟨t, ht, hcases⟩ := exec_cases i s
  refine ⟨t, ht, ?_⟩
  rcases hcases with ⟨hi, st, -, -, rfl⟩ | ⟨x, y, bits, rfl, -, -, rfl⟩ | ⟨rfl, -, -, rfl⟩ | ⟨rfl, -, rfl⟩ | ⟨act, -, rfl⟩
  · exact ⟨(CommandKeeps_stepBodies 0 s).respond st, fun h => by simp [hi] at h⟩
  · exact ⟨⟨rfl, rfl, rfl, rfl, id, fun _ _ => rfl⟩, fun h => nomatch h⟩
  · exact ⟨(CommandKeeps_stepBodies 1 s).respond .OK, fun h => nomatch h⟩
  · exact ⟨(CommandKeeps_stepBodies _ s).respond .OK, fun h => nomatch h⟩
  · exact ⟨⟨rfl, rfl, rfl, rfl, id, fun _ _ => rfl⟩, fun _ => rfl⟩

theorem acceptCommand_nmax {c : Command} {s t : State} (ht : acceptCommand c s = .next t) : t.nmax = s.nmax := by
  rcases acceptCommand_inversion ht with ⟨st, -, rfl⟩ | ⟨x, y, bits, -, -, -, rfl⟩ | ⟨-, -, rfl⟩ | ⟨-, rfl⟩
  · rfl
  · rfl
  · rfl
  · exact stepBodies_nmax _ s

theorem runEdge_nmax (s : State) : (runEdge s).nmax = s.nmax := by
  by_cases h : s.count + 1 = s.n
  · rw [runEdge_completes s h]; rfl
  · rw [runEdge_continues s h]; rfl

theorem step_nmax {s t : State} (ht : step s = .next t) : t.nmax = s.nmax := by
  rcases step_inversion ht with ⟨l, rfl⟩ | ⟨rest, -, rfl⟩ | ⟨c, rest, -, -, ha⟩ | ⟨-, l, rfl⟩
  · rfl
  · rfl
  · have hnmax := acceptCommand_nmax ha
    exact hnmax
  · exact runEdge_nmax _

/-- Settles O34: NMAX by the cases of a transition, the rest by those of an instruction. -/
theorem commandFrame : Obligations.CommandFrame := by
  unfold Obligations.CommandFrame
  refine ⟨fun s t => step_nmax, fun i s => ?_⟩
  obtain ⟨t, ht, ⟨hnmax, hhost, hphase, hdraws, hwf, hlog⟩, haction⟩ := exec_keeps i s
  exact ⟨t, ht, hnmax, hhost, hphase, hdraws, hwf, hlog, haction⟩

/-! ## The actions (41_engine.md R119, R120) -/

/-- The two bits of an action's code are those of the pair that selects it: subtract at (1, 0), add at (0, 1). -/
theorem boothDecide_code (Q0 q1 : Bool) : (boothDecide Q0 q1).code = BitVec.ofBool (Q0 && !q1) ++ BitVec.ofBool (q1 && !Q0) := by
  cases Q0 <;> cases q1 <;> rfl

/-- Settles O19: the decision by its table, each action by its effect on A. -/
theorem actionsDriveTheAdder : Obligations.ActionsDriveTheAdder := by
  unfold Obligations.ActionsDriveTheAdder
  exact ⟨⟨rfl, rfl, rfl, rfl⟩, fun s => ⟨exec_instr .none s, exec_instr .add s, exec_instr .subtract s⟩, boothDecide_code,
    rfl, rfl, rfl⟩

/-- Settles O20: the registers of a step body are the shift of what the selected action leaves. -/
theorem stepRunsTheSelectedAction : Obligations.StepRunsTheSelectedAction := by
  unfold Obligations.StepRunsTheSelectedAction
  exact fun s hc hne => ⟨_, _, exec_instr _ s, exec_step_of_count_ne_n s hc hne, rfl⟩

/-! ## The transition (41_engine.md R111, R130) -/

/-- Settles O46: the oldest input is taken and its command accepted. -/
theorem stepRunsTheDecodedCommand : Obligations.StepRunsTheDecodedCommand := by
  unfold Obligations.StepRunsTheDecodedCommand
  intro s c rest i hp hh hd
  calc step s = acceptCommand c { s with host := rest } := step_idle_input s (.command c) rest hp hh
    _ = exec i { s with host := rest } := acceptCommand_of_decode c _ i hd

theorem exists_acceptCommand_next (c : Command) (s : State) : ∃ t, acceptCommand c s = .next t := by
  obtain ⟨st, u, ha, -⟩ := acceptCommand_responds c s
  exact ⟨_, ha⟩

/-- Settles O47: every case of a transition and of an edge answers a next state. -/
theorem noTransitionStops : Obligations.NoTransitionStops := by
  unfold Obligations.NoTransitionStops
  refine ⟨fun s => ?_, fun p s => ?_⟩
  · rcases step_cases s with ⟨-, l, hs⟩ | ⟨rest, -, hs⟩ | ⟨c, rest, -, -, hs⟩ | ⟨-, l, hs⟩
    · exact ⟨_, hs⟩
    · exact ⟨_, hs⟩
    · rw [hs]
      exact exists_acceptCommand_next c _
    · exact ⟨_, hs⟩
  · rcases clockEdge_cases p s with ⟨-, he⟩ | ⟨-, he⟩ | ⟨-, -, he⟩ | ⟨-, -, he⟩
    · exact ⟨_, he⟩
    · exact ⟨_, he⟩
    · exact ⟨_, he⟩
    · rw [he]
      exact exists_acceptCommand_next p.cmd s

/-- With a command first in the queue a transition in RUN_LOOP is an edge of the RUN; the command stays. -/
theorem step_busy_command (s : State) (c : Command) (rest : List HostInput) (hp : s.phase = .RUN_LOOP)
    (hh : s.host = .command c :: rest) : step s = .next (runEdge s) := by
  rw [step_run_loop s hp]
  simp [stepRunLoop, hh]

/-- Settles O48: the edge leaves the queue alone, and ends the RUN exactly when its step makes `count = n`. -/
theorem busyCommandWaits : Obligations.BusyCommandWaits := by
  unfold Obligations.BusyCommandWaits
  intro s c rest hp hh
  refine ⟨_, step_busy_command s c rest hp hh, ?_⟩
  by_cases h : s.count + 1 = s.n
  · rw [runEdge_completes s h]
    exact ⟨hh, rfl, rfl, fun _ => ⟨rfl, rfl, rfl⟩, fun hne => absurd h hne⟩
  · rw [runEdge_continues s h]
    exact ⟨hh, rfl, rfl, fun heq => absurd heq h, fun _ => ⟨rfl, rfl⟩⟩

end Sys2Proof.Machine
end

section
/-! The step log's ports and its packed form (20_memory.md R51 to R55), and CW (00_scope.md R9). -/

namespace Sys2Proof.Machine

/-! ## The log port -/

/-- Settles O51: the port is valid below `log_len`, where the invariant has an entry. -/
theorem logPortValidity : Obligations.LogPortValidity := by
  unfold Obligations.LogPortValidity
  intro s a h i
  refine ⟨logAddress_of_le s.nmax a, logRvalid_iff a s, fun hv => ?_, readLog_fault a s⟩
  obtain ⟨-, hi⟩ := (logRvalid_iff a s).1 hv
  obtain ⟨e, he⟩ := Option.isSome_iff_exists.1 (h.log_readable i hi)
  exact ⟨e, _, he, readLog_next a s e hv he, rfl, rfl, rfl, rfl, rfl, rfl⟩

/-- Settles O52: the trace says which entry stands at each index, and the port gives its view. -/
theorem logRecordsEveryStep : Obligations.LogRecordsEveryStep := by
  unfold Obligations.LogRecordsEveryStep
  intro s k h htr hc hk
  exact (h.logReadable hc).readLog_eq (by rw [h.log_len_eq]; exact hk) (htr.log hc k hk)

/-! ## The packed entry -/

/-- The lowest digit of a number in base `B`. -/
theorem digit_mod (B d r : Nat) (hd : d < B) : (d + B * r) % B = d := by
  rw [Nat.add_mul_mod_self_left, Nat.mod_eq_of_lt hd]

/-- The digits above it. -/
theorem digit_div (B d r : Nat) (hd : d < B) : (d + B * r) / B = r := by
  rw [Nat.add_mul_div_left d r (Nat.zero_lt_of_lt hd), Nat.div_eq_of_lt hd, Nat.zero_add]

theorem digit_lt (B C d r : Nat) (hd : d < B) (hr : r < C) : d + B * r < B * C :=
  calc d + B * r < B + B * r := Nat.add_lt_add_right hd _
    _ = B * (r + 1) := by rw [Nat.mul_succ, Nat.add_comm]
    _ ≤ B * C := Nat.mul_le_mul_left B hr

theorem code_toNat_lt (a : Action) : a.code.toNat < 4 := a.code.isLt

/-- Fields below their bases make a word below the product of the bases, which is `2` to the sum of the widths. -/
theorem pack_lt (nmax : Nat) (e : LogEntry) (h : e.fits nmax = true) : e.pack nmax < 2 ^ (cw nmax + 3 + 3 * nmax) := by
  obtain ⟨⟨⟨hidx, ha⟩, hq⟩, hm⟩ := (LogEntry.fits_iff nmax e).1 h
  have hsize : 2 ^ (cw nmax + 3 + 3 * nmax) = 2 ^ cw nmax * (4 * (2 * (2 ^ nmax * (2 ^ nmax * 2 ^ nmax)))) := by ring
  rw [hsize]
  exact digit_lt _ _ _ _ hidx (digit_lt _ _ _ _ (code_toNat_lt e.act) (digit_lt _ _ _ _ (Bool.toNat_lt e.q1)
    (digit_lt _ _ _ _ hq (digit_lt _ _ _ _ ha hm))))

theorem decodeActionCode_ofNat_digit (a : Action) (r : Nat) :
    decodeActionCode (BitVec.ofNat 2 (a.code.toNat + 4 * r)) = .ok a := by
  have hcode : BitVec.ofNat 2 (a.code.toNat + 4 * r) = a.code :=
    BitVec.eq_of_toNat_eq ((BitVec.toNat_ofNat _ _).trans (digit_mod 4 _ r (code_toNat_lt a)))
  rw [hcode, decodeActionCode_code]

theorem testBit_zero_digit (b : Bool) (r : Nat) : (b.toNat + 2 * r).testBit 0 = b := by
  rw [Nat.testBit_zero, digit_mod 2 _ r (Bool.toNat_lt b)]
  cases b <;> rfl

/-- Each field is a digit of the packed word, in its own base. -/
theorem unpack_pack (nmax : Nat) (e : LogEntry) (h : e.fits nmax = true) :
    LogEntry.unpack nmax (e.pack nmax) = .next e := by
  obtain ⟨⟨⟨hidx, ha⟩, hq⟩, hm⟩ := (LogEntry.fits_iff nmax e).1 h
  simp only [LogEntry.unpack, LogEntry.pack, digit_div _ _ _ hidx, digit_mod _ _ _ hidx,
    decodeActionCode_ofNat_digit, digit_div _ _ _ (code_toNat_lt e.act), testBit_zero_digit,
    digit_div _ _ _ (Bool.toNat_lt e.q1), digit_mod _ _ _ hq, digit_div _ _ _ hq, digit_mod _ _ _ ha,
    digit_div _ _ _ ha, Nat.mod_eq_of_lt hm]

/-- Settles O53: by `pack_lt` and `unpack_pack`. -/
theorem packedEntryRoundTrip : Obligations.PackedEntryRoundTrip := by
  unfold Obligations.PackedEntryRoundTrip
  exact fun nmax e h => ⟨pack_lt nmax e h, unpack_pack nmax e h⟩

/-! ## CW -/

/-- Settles O54: CW is one more than the position of NMAX's top bit. -/
theorem counterWidthIsLeast : Obligations.CounterWidthIsLeast := by
  unfold Obligations.CounterWidthIsLeast
  intro nmax hlegal
  obtain ⟨hmin, -⟩ := (nmaxLegal_iff nmax).1 hlegal
  exact ⟨lt_two_pow_cw nmax nmax le_rfl, fun w hw => (Nat.log2_lt (by omega)).2 hw⟩

end Sys2Proof.Machine
end

section
/-! A RUN at the cycle level (70_reset_and_hazards.md R169 to R176): its states after whole steps, its last edge, and the
response register at every edge. -/

namespace Sys2Proof.Machine

/-! ## A RUN in progress -/

/-- The state of a RUN accepted in `s` after `k` of its steps, before it completes. -/
def midRun (k : Nat) (s : State) : State := { stepBodies k s with phase := .RUN_LOOP, rsp_valid := false }

/-- The step body neither reads nor writes the phase and the response register. -/
theorem stepBody_midRun (k : Nat) (s : State) : stepBody (midRun k s) = midRun (k + 1) s := by
  rw [midRun, midRun, stepBodies_last]
  rfl

theorem midRun_count_succ (k : Nat) (s : State) : (midRun k s).count + 1 = s.count + (k + 1) := by
  rw [midRun, stepBodies_count]
  omega

theorem midRun_n (k : Nat) (s : State) : (midRun k s).n = s.n := stepBodies_n k s

/-- An edge with a further step to come. -/
theorem runEdge_midRun_continues (k : Nat) (s : State) (h : s.count + (k + 1) < s.n) : runEdge (midRun k s) = midRun (k + 1) s := by
  rw [runEdge_continues _ (by rw [midRun_count_succ, midRun_n]; omega), stepBody_midRun]
  rfl

/-- The last edge. -/
theorem runEdge_midRun_completes (k : Nat) (s : State) (h : s.count + (k + 1) = s.n) :
    runEdge (midRun k s) = respond .OK { stepBodies (k + 1) s with phase := .IDLE } := by
  rw [runEdge_completes _ (by rw [midRun_count_succ, midRun_n, h]), stepBody_midRun]
  rfl

/-- The accepting edge is like an edge of a RUN that has done no step yet. -/
theorem runEdge_midRun_zero (s : State) : runEdge (midRun 0 s) = runEdge s := by
  by_cases h : s.count + 1 = s.n
  · rw [runEdge_completes s h, runEdge_completes (midRun 0 s) h]
    rfl
  · rw [runEdge_continues s h, runEdge_continues (midRun 0 s) h]
    rfl

/-! ## Several edges -/

theorem clockEdges_cons_of_next (p : Pins) (rest : List Pins) (s t : State) (h : clockEdge p s = .next t) :
    clockEdges (p :: rest) s = clockEdges rest t := by
  rw [clockEdges, h]

/-- While steps remain each edge executes one, whatever the command pins carry. -/
theorem clockEdges_midRun (l : List Pins) (k : Nat) (s : State) (hr : ∀ p ∈ l, p.rst_n = true)
    (h : s.count + (k + l.length) < s.n) : clockEdges l (midRun k s) = .next (midRun (k + l.length) s) := by
  induction l generalizing k with
  | nil => rfl
  | cons p rest ih =>
    obtain ⟨hp, hrest⟩ := List.forall_mem_cons.1 hr
    rw [List.length_cons] at h ⊢
    rw [clockEdges_cons_of_next p rest _ _ (clockEdge_run_loop p _ hp rfl), runEdge_midRun_continues k s (by omega),
      ih (k + 1) hrest (by omega), Nat.add_assoc, Nat.add_comm 1]

/-- As many edges as steps remain complete the RUN. -/
theorem clockEdges_midRun_completes (p : Pins) (rest : List Pins) (k : Nat) (s : State)
    (hr : ∀ p' ∈ p :: rest, p'.rst_n = true) (h : s.count + (k + (rest.length + 1)) = s.n) :
    clockEdges (p :: rest) (midRun k s) =
      .next (respond .OK { stepBodies (k + (rest.length + 1)) s with phase := .IDLE }) := by
  induction rest generalizing p k with
  | nil =>
    obtain ⟨hp, -⟩ := List.forall_mem_cons.1 hr
    rw [clockEdges_cons_of_next p [] _ _ (clockEdge_run_loop p _ hp rfl), runEdge_midRun_completes k s h]
    rfl
  | cons q rest ih =>
    obtain ⟨hp, hrest⟩ := List.forall_mem_cons.1 hr
    rw [List.length_cons] at h ⊢
    rw [clockEdges_cons_of_next p _ _ _ (clockEdge_run_loop p _ hp rfl), runEdge_midRun_continues k s (by omega),
      ih q (k + 1) hrest (by omega), Nat.add_assoc, Nat.add_comm 1]

/-! ## From the accepting edge -/

theorem accepts_pins (p : Pins) (s : State) (ha : accepts p s = true) :
    p.rst_n = true ∧ p.cmd_valid = true ∧ s.phase = .IDLE := by
  obtain ⟨hv, hready⟩ := (accepts_iff p s).1 ha
  obtain ⟨hrst, hp⟩ := (cmdReady_iff p s).1 hready
  exact ⟨hrst, hv, hp⟩

theorem accepts_eq_false_of_run_loop (p : Pins) (s : State) (hp : s.phase = .RUN_LOOP) : accepts p s = false :=
  Bool.eq_false_of_not_eq_true fun ha => by
    obtain ⟨-, -, hidle⟩ := accepts_pins p s ha
    simp [hp] at hidle

/-- The edges of an accepted RUN are those of a RUN in progress that has done no step yet. -/
theorem clockEdges_of_accepted_run (s : State) (p : Pins) (rest : List Pins) (hrun : s.running = true)
    (ha : accepts p s = true) (hd : decodeCommand s.nmax p.cmd = .ok .run) :
    clockEdges (p :: rest) s = clockEdges (p :: rest) (midRun 0 s) := by
  obtain ⟨hrst, -⟩ := accepts_pins p s ha
  rw [clockEdges_cons_of_next p rest s _ (clockEdge_of_running_run p s ha hd hrun),
    clockEdges_cons_of_next p rest (midRun 0 s) _ (clockEdge_run_loop p _ hrst rfl), runEdge_midRun_zero]

theorem completionEdges_run (c : Command) (s : State) (hd : decodeCommand s.nmax c = .ok .run) (hc : s.cfg_valid = true) :
    completionEdges c s = max 1 (s.n - s.count) := by
  simp [completionEdges, hd, hc]

/-- Settles O55: the edges of the RUN are its step bodies, and the last of them answers as the transaction does. -/
theorem cycleRunEqualsTransaction : Obligations.CycleRunEqualsTransaction := by
  unfold Obligations.CycleRunEqualsTransaction
  intro s p rest hp hrun ha hd hr hlen
  obtain ⟨hrst, -⟩ := accepts_pins p s ha
  obtain ⟨hc, -⟩ := (running_iff s).1 hrun
  have hidle : ({ runLoop s with phase := .IDLE } : State) = runLoop s := by
    rw [← hp, ← stepBodies_phase (s.n - s.count) s]
    rfl
  constructor
  · rw [clockEdges_of_accepted_run s p rest hrun ha hd,
      clockEdges_midRun_completes p rest 0 s (List.forall_mem_cons.2 ⟨hrst, hr⟩) (by omega), Nat.zero_add, hlen,
      exec_run_of_configured s hc]
    exact congrArg (fun t => Host.Outcome.next (respond .OK t)) hidle
  · rw [completionEdges_run p.cmd s hd hc, ← hlen, Nat.max_eq_right (Nat.le_add_left 1 _)]

/-- Settles O57: the draw is cut to the steps of the RUN; at the cycle level each edge is one step, in RUN_LOOP. -/
theorem midRunStatesAreWholeSteps : Obligations.MidRunStatesAreWholeSteps := by
  unfold Obligations.MidRunStatesAreWholeSteps
  refine ⟨fun s k => ⟨_, Nat.le_of_lt_succ (Nat.mod_lt _ (Nat.succ_pos _)), rfl⟩, fun s p q rest _ hrun ha hd hr hlt => ?_⟩
  obtain ⟨hrst, -⟩ := accepts_pins p s ha
  have hedges := clockEdges_midRun (p :: rest) 0 s (List.forall_mem_cons.2 ⟨hrst, hr⟩) (by rw [List.length_cons]; omega)
  rw [Nat.zero_add, List.length_cons] at hedges
  exact ⟨midRun (rest.length + 1) s, (clockEdges_of_accepted_run s p rest hrun ha hd).trans hedges,
    accepts_eq_false_of_run_loop q _ rfl, rfl⟩

/-! ## The response register at an edge (70_reset_and_hazards.md R174) -/

/-- An edge of a RUN goes on without a response, or ends the RUN with OK. -/
theorem runEdge_response (s : State) :
    ((runEdge s).phase = .RUN_LOOP ∧ (runEdge s).rsp_valid = false) ∨
      ((runEdge s).phase = .IDLE ∧ (runEdge s).rsp_valid = true ∧ (runEdge s).rsp_status = 0#3) := by
  by_cases h : s.count + 1 = s.n
  · rw [runEdge_completes s h]
    exact .inr ⟨rfl, rfl, rfl⟩
  · rw [runEdge_continues s h]
    exact .inl ⟨rfl, rfl⟩

theorem readRspStatus_of_valid (k : Nat) (s : State) (h : s.rsp_valid = true) : readRspStatus k s = s.rsp_status := if_pos h

/-- What an edge of a RUN answers: OK when it ends the RUN, which is what a RUN accepted at that edge answers as a whole. -/
theorem runEdge_answers (p : Pins) (s : State)
    (hbusy : s.phase = .RUN_LOOP ∨ accepts p s = true ∧ decodeCommand s.nmax p.cmd = .ok .run ∧ s.running = true)
    (ha : accepts p s = true) : ∃ u, acceptCommand p.cmd s = .next u ∧ u.rsp_status = 0#3 := by
  obtain hloop | ⟨-, hd, hrun⟩ := hbusy
  · simp [accepts_eq_false_of_run_loop p s hloop] at ha
  · obtain ⟨hc, -⟩ := (running_iff s).1 hrun
    exact ⟨_, (acceptCommand_of_decode p.cmd s .run hd).trans (exec_run_of_configured s hc), rfl⟩

/-- Settles O59: by the cases of an edge without the hardware reset. -/
theorem responseLastsOneCycle : Obligations.ResponseLastsOneCycle := by
  unfold Obligations.ResponseLastsOneCycle
  intro p s hr
  have haccepts := accepts_pins p s
  rcases clockEdge_cases p s with ⟨hrst, -⟩ | ⟨hbusy, he⟩ | ⟨hp, hv, he⟩ | ⟨hp, ha, he⟩
  · simp [hr] at hrst
  · have hnoIdle : s.phase = .IDLE → p.cmd_valid = false → runEdge s = { s with rsp_valid := false } := fun hp hv => by
      obtain hloop | ⟨ha, -⟩ := hbusy
      · simp [hp] at hloop
      · obtain ⟨-, hvalid, -⟩ := haccepts ha
        simp [hvalid] at hv
    refine ⟨_, he, hnoIdle, ?_⟩
    obtain ⟨hloop, hv⟩ | ⟨hidle, hv, hst⟩ := runEdge_response s
    · simp [hloop, hv]
    · refine ⟨fun hloop => by simp [hidle] at hloop, fun ha _ => ⟨hv, ?_⟩, fun _ _ => ⟨hv, hst⟩,
        fun _ k => readRspStatus_of_valid k _ hv⟩
      obtain ⟨u, hu, hust⟩ := runEdge_answers p s hbusy ha
      exact ⟨u, hu, hst.trans hust.symm⟩
  · have hnot : accepts p s = false := by simp [accepts, hv]
    exact ⟨_, he, fun _ _ => rfl, fun _ => rfl, fun ha => by simp [hnot] at ha, fun hloop => by simp [hp] at hloop,
      fun hv k => readRspStatus_of_valid k _ hv⟩
  · obtain ⟨st, u, hu, -, hphase, -⟩ := acceptCommand_responds p.cmd s
    obtain ⟨-, hvalid, -⟩ := haccepts ha
    exact ⟨_, he.trans hu, fun _ hv => by simp [hvalid] at hv, fun hloop => by simp [hphase, hp] at hloop,
      fun _ _ => ⟨rfl, _, hu, rfl⟩, fun hloop => by simp [hp] at hloop, fun hv k => readRspStatus_of_valid k _ hv⟩

end Sys2Proof.Machine
end
